-- ==== Sys2Proof/Word.lean ====
section
/-! DEFINITION. The word types of the PMP block: a config byte and the container of an XLEN-bit word. -/

namespace Sys2Proof

/-- One 8-bit config byte (10_state.md R17). -/
abbrev Byte := BitVec 8

/-- The container of an XLEN-bit word (00_scope.md R5, R12). With XLEN = 32 a word is held zero-extended, its upper half
zero. DESIGN CHOICE (log 3): one container width for both values of XLEN. -/
abbrev Word := BitVec 64

end Sys2Proof
end

