-- ==== Sys2Proof/Syntax.lean ====
section
/-! DEFINITION. The operations of the block (30_encoding.md R58, R71), one constructor per row of opcode_table.json, and
the input ports that carry one of them in one step (R54). -/

namespace Sys2Proof

/-- The privilege level of a request (00_scope.md R10). -/
inductive Priv where
  /-- user -/
  | u
  /-- supervisor -/
  | s
  /-- machine, the highest level -/
  | m
deriving DecidableEq, Repr

/-- The kind of access a CHECK asks about (30_encoding.md R57). -/
inductive Access where
  | read
  | write
  | execute
deriving DecidableEq, Repr

/-- The operations in the request syntax of 30_encoding.md R71: the fields an operation does not use are no operands
(R62). -/
inductive Instr where
  /-- NOP (40_csr_codec.md R80). -/
  | nop
  /-- CFGW.p g, wdata (40_csr_codec.md R74). -/
  | cfgw (p : Priv) (g : BitVec 8) (wdata : Word)
  /-- CFGR.p g (40_csr_codec.md R76). -/
  | cfgr (p : Priv) (g : BitVec 8)
  /-- ADDRW.p i, wdata (40_csr_codec.md R78). -/
  | addrw (p : Priv) (i : BitVec 8) (wdata : Word)
  /-- ADDRR.p i (40_csr_codec.md R79). -/
  | addrr (p : Priv) (i : BitVec 8)
  /-- CHECK.p.acc addr (42_permission_engine.md R97). -/
  | check (p : Priv) (acc : Access) (addr : Word)
  /-- RESET (70_reset_and_hazards.md R123). -/
  | reset
deriving DecidableEq, Repr

/-- The values on all input ports in one step (30_encoding.md R54). -/
structure Request where
  /-- `rst`, 1 bit: the reset request. -/
  rst : Bool
  /-- `ctl`, 16 bits: the request control word. -/
  ctl : BitVec 16
  /-- `wdata`, XLEN bits: write data. -/
  wdata : Word
  /-- `addr`, XLEN bits: the physical address of a CHECK. -/
  addr : Word
deriving DecidableEq, Repr

/-- Why a control word names no operation (30_encoding.md R61, items 1 to 4). -/
inductive DecodeError where
  /-- op is 0b110 or 0b111 (R61 item 1). -/
  | reservedOp
  /-- ctl[7] is 1 (R61 item 2). -/
  | reservedBit
  /-- priv is 0b10 and op is not NOP (R61 item 3). -/
  | reservedPriv
  /-- acc is 0b11 and op is CHECK (R61 item 4). -/
  | reservedAccess
deriving DecidableEq, Repr

end Sys2Proof
end

