-- ==== Sys2Proof/Decode.lean ====
section
/-! DEFINITION. The decoder of a step's input ports, total and rejecting by name, and the encoder: 30_encoding.md R54 to
R58, R61, R62, R71. Index ranges depend on the parameters and are checked by the meanings (R61 items 5 and 6). -/

namespace Sys2Proof

/-! ## The fields of the ctl word (30_encoding.md R55) -/

/-- op, bits 2:0. -/
def ctlOp (c : BitVec 16) : BitVec 3 := c.extractLsb' 0 3

/-- priv, bits 4:3. -/
def ctlPriv (c : BitVec 16) : BitVec 2 := c.extractLsb' 3 2

/-- acc, bits 6:5. -/
def ctlAcc (c : BitVec 16) : BitVec 2 := c.extractLsb' 5 2

/-- rsv, bit 7. -/
def ctlRsv (c : BitVec 16) : BitVec 1 := c.extractLsb' 7 1

/-- idx, bits 15:8. -/
def ctlIdx (c : BitVec 16) : BitVec 8 := c.extractLsb' 8 8

/-- The ctl word with rsv = 0: the pattern iiiiiiii0aappooo (30_encoding.md R55). -/
def ctlWord (idx : BitVec 8) (acc priv : BitVec 2) (op : BitVec 3) : BitVec 16 :=
  idx ++ 0#1 ++ acc ++ priv ++ op

/-! ## Privilege and access codes (30_encoding.md R56, R57) -/

/-- The level a priv field names; 0b10 names none (R56). -/
def privOfBits (b : BitVec 2) : Option Priv :=
  match b.toNat with
  | 0 => some .u
  | 1 => some .s
  | 3 => some .m
  | _ => none

/-- The priv field of a level (R56). -/
def privBits : Priv → BitVec 2
  | .u => 0b00#2
  | .s => 0b01#2
  | .m => 0b11#2

/-- The access type an acc field names; 0b11 names none (R57). -/
def accOfBits (b : BitVec 2) : Option Access :=
  match b.toNat with
  | 0 => some .read
  | 1 => some .write
  | 2 => some .execute
  | _ => none

/-- The acc field of an access type (R57). -/
def accBits : Access → BitVec 2
  | .read => 0b00#2
  | .write => 0b01#2
  | .execute => 0b10#2

/-! ## Decoding -/

/-- The rest of a decoding that needs the requesting level (R61 item 3). -/
def withPriv (c : BitVec 16) (k : Priv → Except DecodeError Instr) : Except DecodeError Instr :=
  match privOfBits (ctlPriv c) with
  | some p => k p
  | none => .error .reservedPriv

/-- The rest of a decoding that needs the access type (R61 item 4). -/
def withAcc (c : BitVec 16) (k : Access → Except DecodeError Instr) : Except DecodeError Instr :=
  match accOfBits (ctlAcc c) with
  | some a => k a
  | none => .error .reservedAccess

/-- The operation a ctl word names, with the data ports beside it: the opcode map of 30_encoding.md R58. Where several
items of R61 hold the reserved bit is named first, then the op, the level and the access type (log 7). -/
def decodeCtl (c : BitVec 16) (wdata addr : Word) : Except DecodeError Instr :=
  if ctlRsv c = 1#1 then .error .reservedBit
  else
    match (ctlOp c).toNat with
    | 0 => .ok .nop
    | 1 => withPriv c fun p => .ok (.cfgw p (ctlIdx c) wdata)
    | 2 => withPriv c fun p => .ok (.cfgr p (ctlIdx c))
    | 3 => withPriv c fun p => .ok (.addrw p (ctlIdx c) wdata)
    | 4 => withPriv c fun p => .ok (.addrr p (ctlIdx c))
    | 5 => withPriv c fun p => withAcc c fun a => .ok (.check p a addr)
    | _ => .error .reservedOp

/-- The operation of one step's input ports: RESET where rst = 1, whatever ctl carries (70_reset_and_hazards.md R123,
R127), else the request in ctl. -/
def decodeRequest (r : Request) : Except DecodeError Instr :=
  if r.rst then .ok .reset else decodeCtl r.ctl r.wdata r.addr

/-! ## Encoding (30_encoding.md R71: fields an operation ignores are written 0) -/

/-- A request of the ctl word `c` with its data ports. -/
def ctlRequest (c : BitVec 16) (wdata addr : Word) : Request where
  rst := false
  ctl := c
  wdata := wdata
  addr := addr

/-- The input ports that present an operation (30_encoding.md R71). -/
def encode : Instr → Request
  | .nop => ctlRequest (ctlWord 0 0 0 0b000#3) 0 0
  | .cfgw p g wdata => ctlRequest (ctlWord g 0 (privBits p) 0b001#3) wdata 0
  | .cfgr p g => ctlRequest (ctlWord g 0 (privBits p) 0b010#3) 0 0
  | .addrw p i wdata => ctlRequest (ctlWord i 0 (privBits p) 0b011#3) wdata 0
  | .addrr p i => ctlRequest (ctlWord i 0 (privBits p) 0b100#3) 0 0
  | .check p a addr => ctlRequest (ctlWord 0 (accBits a) (privBits p) 0b101#3) 0 addr
  | .reset => { rst := true, ctl := 0, wdata := 0, addr := 0 }

/-! ## The rows of opcode_table.json -/

/-- The input ports that carry a row's bits: a row of at most one byte is the RST format, whose bit 0 is the rst port
(70_reset_and_hazards.md R123), any other is the CTL16 format (30_encoding.md R73). Every port the row gives no bits is 0. -/
def tableRequest (nbits w : Nat) : Request :=
  if nbits ≤ 8 then { rst := w.testBit 0, ctl := 0, wdata := 0, addr := 0 }
  else ctlRequest (BitVec.ofNat 16 w) 0 0

/-- The operation the decoder reads from a row's bits. -/
def decodeTableWord (nbits w : Nat) : Option Instr :=
  match decodeRequest (tableRequest nbits w) with
  | .ok i => some i
  | .error _ => none

end Sys2Proof
end

