-- ==== Sys2Proof/Machine/Flags.lean ====
section
/-! DEFINITION. The fields of a config byte (00_scope.md R13, 10_state.md R24). The block has no status flags and no
condition codes (10_state.md R22): these bits are the only flags it holds. -/

namespace Sys2Proof.Machine

/-- The address-matching mode (10_state.md R28). -/
inductive Mode where
  | off
  | tor
  | na4
  | napot
deriving DecidableEq, Repr

/-- R(c), bit 0: the read permission (10_state.md R25). -/
def readBit (c : Byte) : Bool := c.getLsbD 0

/-- W(c), bit 1: the write permission (10_state.md R26). -/
def writeBit (c : Byte) : Bool := c.getLsbD 1

/-- X(c), bit 2: the execute permission (10_state.md R27). -/
def execBit (c : Byte) : Bool := c.getLsbD 2

/-- A(c), bits 4:3: the address-matching mode, all four values defined (10_state.md R28). -/
def modeOf (c : Byte) : Mode :=
  match c.getLsbD 4, c.getLsbD 3 with
  | false, false => .off
  | false, true => .tor
  | true, false => .na4
  | true, true => .napot

/-- RSV(c), bits 6:5: stored verbatim, read by no rule (10_state.md R29). -/
def reservedBits (c : Byte) : BitVec 2 := c.extractLsb' 5 2

/-- L(c), bit 7: the lock bit (10_state.md R30). -/
def lockBit (c : Byte) : Bool := c.getLsbD 7

/-- perm(c, acc): the permission bit an access type selects (42_permission_engine.md R97, R100). -/
def permits (acc : Access) (c : Byte) : Bool :=
  match acc with
  | .read => readBit c
  | .write => writeBit c
  | .execute => execBit c

end Sys2Proof.Machine
end

