-- ==== Sys2Proof/Config.lean ====
section
/-! DEFINITION. What an implementation of the block fixes: its parameters (00_scope.md R5, R6, R9). The spec leaves no
value of the block open, so there is no free value here. -/

namespace Sys2Proof

/-- The native machine word width, 32 or 64 (00_scope.md R5). -/
inductive Xlen where
  | rv32
  | rv64
deriving DecidableEq, Repr

/-- The parameters of one block (00_scope.md, the parameter summary). K and G follow from them (R7, R8). -/
structure Params where
  /-- XLEN (R5). -/
  xlen : Xlen
  /-- N, the number of entries (R6). -/
  n : Nat
  /-- TOR_PREV_LOCK (R9): a locked TOR entry i+1 also protects pmpaddr[i]. -/
  torPrevLock : Bool
deriving DecidableEq, Repr

end Sys2Proof
end

