-- ==== Sys2Proof/Machine/Layout.lean ====
section
/-! DEFINITION. What follows from the parameters: word width, entries per configuration register, number of
configuration registers, the legal range of the parameters, and the width of an XLEN-bit port. -/

namespace Sys2Proof

/-- XLEN as a number (00_scope.md R5). -/
def Xlen.bits : Xlen → Nat
  | .rv32 => 32
  | .rv64 => 64

/-- K = XLEN / 8, the entries per configuration register (00_scope.md R7). -/
def Params.k (p : Params) : Nat := p.xlen.bits / 8

/-- G = N / K, the number of configuration registers (00_scope.md R8). -/
def Params.groups (p : Params) : Nat := p.n / p.k

/-- The legal parameters: K ≤ N ≤ 256 and N a multiple of K (00_scope.md R6; 92_eei_decisions.md D7, D8). -/
def Params.wf (p : Params) : Bool :=
  decide (p.k ≤ p.n) && decide (p.n ≤ 256) && decide (p.n % p.k = 0)

/-- What an XLEN-bit port carries of a word: its low XLEN bits (30_encoding.md R54). -/
def Params.port (p : Params) (w : Word) : Word :=
  match p.xlen with
  | .rv32 => (w.setWidth 32).setWidth 64
  | .rv64 => w

/-- The word is an XLEN-bit value (00_scope.md R12). -/
def Params.fits (p : Params) (w : Word) : Bool := decide (w.toNat < 2 ^ p.xlen.bits)

/-- The parameters of `State.reset`: N = 16 and TOR_PREV_LOCK = false are the spec's defaults (00_scope.md R6, R9).
DESIGN CHOICE (log 2): XLEN = 32, for which the spec gives no default. -/
def Params.standard : Params where
  xlen := .rv32
  n := 16
  torPrevLock := false

end Sys2Proof
end

