-- ==== Sys2Proof/Machine/Operands.lean ====
section
/-! DEFINITION. The operand forms: bytes of a configuration word (30_encoding.md R63, R64), the byte address an address
word denotes (10_state.md R31), the NAPOT decode (41_address_matcher.md R86) and the words that encode a region
(30_encoding.md R66 to R68). -/

namespace Sys2Proof.Machine

/-! ## Configuration words -/

/-- Bits 8*b+7 : 8*b of a configuration word (30_encoding.md R63; little-endian, 20_memory.md R39). -/
def byteOf (w : Word) (b : Nat) : Byte := w.extractLsb' (8 * b) 8

/-- The word whose byte b is the b-th byte of the list, byte 0 the least significant (30_encoding.md R64, 20_memory.md
R39). -/
def packBytes : List Byte → Word
  | [] => 0
  | c :: cs => packBytes cs <<< 8 ||| c.setWidth 64

/-- A configuration word with byte b replaced by v: the merge of CFGSETB (30_encoding.md R72). -/
def setByte (w : Word) (b : Nat) (v : Byte) : Word :=
  (w &&& ~~~(0xFF#64 <<< (8 * b))) ||| (v.setWidth 64 <<< (8 * b))

/-! ## Address words -/

/-- The byte address an address word denotes, shifted without truncation (10_state.md R31, 00_scope.md R12). -/
def byteAddress (w : Word) : Nat := w.toNat <<< 2

/-- The number of consecutive one bits of `w` from bit `at_` upward, `fuel` bits looked at. -/
def onesFrom (w : Word) : (fuel at_ : Nat) → Nat
  | 0, _ => 0
  | fuel + 1, at_ => if w.getLsbD at_ then onesFrom w fuel (at_ + 1) + 1 else 0

/-- tones(v): the consecutive one bits of an XLEN-bit value from bit 0 upward, XLEN when it is all ones (00_scope.md
R13). -/
def tones (x : Xlen) (w : Word) : Nat := onesFrom w x.bits 0

/-- The base of a NAPOT region: the k trailing ones cleared, then shifted (41_address_matcher.md R86). -/
def napotBase (x : Xlen) (w : Word) : Nat := (w.toNat - (2 ^ tones x w - 1)) <<< 2

/-- The size of a NAPOT region in bytes, 2^(k+3) (41_address_matcher.md R86; 90_conflicts.md C4). -/
def napotSize (x : Xlen) (w : Word) : Nat := 2 ^ (tones x w + 3)

/-! ## Words that encode a region -/

/-- The address word of the NAPOT region of size S at base B (30_encoding.md R66; 90_conflicts.md C6). -/
def napotWord (base size : Nat) : Word := BitVec.ofNat 64 ((base >>> 2) ||| (size / 8 - 1))

/-- The address word of the exclusive top T of a TOR region (30_encoding.md R67). -/
def torWord (top : Nat) : Word := BitVec.ofNat 64 (top >>> 2)

/-- The address word of the NA4 region at base B (30_encoding.md R68). -/
def na4Word (base : Nat) : Word := BitVec.ofNat 64 (base >>> 2)

end Sys2Proof.Machine
end

