-- ==== Sys2Proof/Machine/State.lean ====
section
/-! DEFINITION. The state of the PMP block as plain data, the reasons a step stops, and the state after reset. -/

namespace Sys2Proof.Machine

/-- The state: the two arrays of the Register Store (10_state.md R16), the values on the output ports (30_encoding.md
R54), the block's parameters (00_scope.md R5, R6, R9) and the requests the caller will present (log 4). -/
structure State where
  /-- XLEN, N and TOR_PREV_LOCK of this block, which no step changes (log 1). -/
  params : Params
  /-- cfg[0..N-1], the config bytes (10_state.md R17). -/
  cfg : List Byte
  /-- pmpaddr[0..N-1], the address words (10_state.md R18). -/
  pmpaddr : List Word
  /-- The read data of the last step, where it was CFGR or ADDRR; no value otherwise (30_encoding.md R59; log 6). -/
  rdata : Option Word
  /-- The verdict bit of the last step, where it was CHECK; no value otherwise (30_encoding.md R59, R70; log 6). -/
  err : Option (BitVec 1)
  /-- The model's own field: what the caller will present on the input ports, oldest first, one value a step (log 4). -/
  pending : List Request
deriving DecidableEq, Repr

/-- The block raises no exception and stops with no fault: every operation is total (60_exceptions.md R107). No
constructor, so no step can answer a fault. -/
inductive Fault where
deriving DecidableEq, Repr

/-- Why a step has no meaning: the refused requests of 30_encoding.md R61, to which the spec gives none (60_exceptions.md
R111). Each is safe: nothing can be proved of what the hardware does then. -/
inductive Refusal where
  /-- No meaning has been written yet for this instruction. Safe. No arm of `exec` answers it now. -/
  | notModelled (mnemonic : String)
  /-- Raised by `step` on a ctl word that names no operation (R61 items 1 to 4). Safe. -/
  | encoding (e : DecodeError)
  /-- Raised by CFGW and CFGR when the group index is G or more (R61 item 5). Safe. -/
  | groupOutOfRange (g : Nat)
  /-- Raised by ADDRW and ADDRR when the entry index is N or more (R61 item 6). Safe. -/
  | entryOutOfRange (i : Nat)
deriving DecidableEq, Repr

/-- A block of parameters `p` right after reset: every config byte and address word zero (10_state.md R34), no value on
the output ports (30_encoding.md R59), nothing presented yet. -/
def State.resetFor (p : Params) : State where
  params := p
  cfg := List.replicate p.n 0
  pmpaddr := List.replicate p.n 0
  rdata := none
  err := none
  pending := []

/-- The machine right after reset, for the parameters of log 2. -/
def State.reset : State := State.resetFor Params.standard

end Sys2Proof.Machine
end

