-- ==== Sys2Proof/Machine/Ops.lean ====
section
/-! DEFINITION. The named operations over the Register Store, the output ports and the presented requests. The block has
no memory (20_memory.md R38) and takes and returns from no exception (60_exceptions.md R107, R114, R115), so there is no
memory operation and no exception entry here. -/

namespace Sys2Proof.Machine

/-! ## Reading the Register Store -/

/-- cfg[i] (00_scope.md R13); zero beyond the store, which no admitted request reaches. -/
def State.cfgAt (s : State) (i : Nat) : Byte := s.cfg.getD i 0

/-- pmpaddr[i] (00_scope.md R13); zero beyond the store, which no admitted request reaches. -/
def State.addrAt (s : State) (i : Nat) : Word := s.pmpaddr.getD i 0

/-- L(cfg[i]) = 1 (10_state.md R30). -/
def State.isLocked (s : State) (i : Nat) : Bool := lockBit (s.cfgAt i)

/-- addr_locked(i), the lock predicate of an address register (40_csr_codec.md R77). -/
def State.addrLocked (s : State) (i : Nat) : Bool :=
  s.isLocked i ||
    (s.params.torPrevLock && decide (i + 1 < s.params.n) && s.isLocked (i + 1) &&
      decide (modeOf (s.cfgAt (i + 1)) = .tor))

/-- CFGREG(g): byte b is cfg[g*K + b] (10_state.md R19, 30_encoding.md R64). -/
def State.readGroup (s : State) (g : Nat) : Word :=
  packBytes ((List.range s.params.k).map fun b => s.cfgAt (g * s.params.k + b))

/-! ## Writing the Register Store -/

/-- Every unlocked byte of group g replaced by its byte of w, each gated by its own lock bit before the request
(40_csr_codec.md R74, R75). Entry i is byte i % K of group i / K (10_state.md R19). -/
def State.writeGroup (s : State) (g : Nat) (w : Word) : State :=
  { s with
    cfg := s.cfg.mapIdx fun i c =>
      if i / s.params.k = g ∧ lockBit c = false then byteOf w (i % s.params.k) else c }

/-- pmpaddr[i] <- w, the XLEN bits of the port verbatim (40_csr_codec.md R78, 30_encoding.md R65). -/
def State.writeAddr (s : State) (i : Nat) (w : Word) : State :=
  { s with pmpaddr := s.pmpaddr.set i (s.params.port w) }

/-- Every config byte and address word zero (70_reset_and_hazards.md R123). -/
def State.zeroed (s : State) : State :=
  { s with cfg := List.replicate s.params.n 0, pmpaddr := List.replicate s.params.n 0 }

/-! ## The output ports (30_encoding.md R59) -/

/-- No value on either output port. -/
def State.quiet (s : State) : State := { s with rdata := none, err := none }

/-- Read data on `rdata`, no value on `err`. -/
def State.answer (s : State) (w : Word) : State := { s with rdata := some w, err := none }

/-- A verdict bit on `err`, no value on `rdata`. -/
def State.judge (s : State) (b : BitVec 1) : State := { s with rdata := none, err := some b }

/-! ## The input ports (30_encoding.md R54) -/

/-- The ports when the caller presents nothing: ctl = 0x0000, which is NOP, the spec's idle request (40_csr_codec.md
R80). DESIGN CHOICE (log 5). -/
def idleRequest : Request := encode .nop

/-- What is on the input ports in the next step: the caller's oldest request (00_scope.md R14; log 4). -/
def State.presented (s : State) : Request := s.pending.headD idleRequest

/-- The state once the presented request has left the caller's list. -/
def State.consumed (s : State) : State := { s with pending := s.pending.tail }

end Sys2Proof.Machine
end

