-- ==== Sys2Proof/Machine/Codec.lean ====
section
/-! DEFINITION. The CSR Codec (40_csr_codec.md): the meanings of NOP, CFGW, CFGR, ADDRW and ADDRR. -/

namespace Sys2Proof.Machine

/-- An operation on group g: refused where g ≥ G (30_encoding.md R60, R61 item 5). -/
def onGroup (g : BitVec 8) (s : State) (k : Nat → State) : Host.Outcome State Fault Refusal :=
  if g.toNat < s.params.groups then .next (k g.toNat) else .refused (.groupOutOfRange g.toNat)

/-- An operation on entry i: refused where i ≥ N (30_encoding.md R60, R61 item 6). -/
def onEntry (i : BitVec 8) (s : State) (k : Nat → State) : Host.Outcome State Fault Refusal :=
  if i.toNat < s.params.n then .next (k i.toNat) else .refused (.entryOutOfRange i.toNat)

/-- NOP (40_csr_codec.md R80). -/
def execNop (s : State) : Host.Outcome State Fault Refusal := .next s.quiet

/-- CFGW (40_csr_codec.md R74): silently nothing below machine mode (R81, R109). -/
def execCfgw (p : Priv) (g : BitVec 8) (wdata : Word) (s : State) :
    Host.Outcome State Fault Refusal :=
  onGroup g s fun g => if p = .m then (s.writeGroup g wdata).quiet else s.quiet

/-- CFGR (40_csr_codec.md R76): the level is accepted and ignored (R81). -/
def execCfgr (_p : Priv) (g : BitVec 8) (s : State) : Host.Outcome State Fault Refusal :=
  onGroup g s fun g => s.answer (s.readGroup g)

/-- ADDRW (40_csr_codec.md R78): silently nothing below machine mode or where addr_locked(i) (R81, R109). -/
def execAddrw (p : Priv) (i : BitVec 8) (wdata : Word) (s : State) :
    Host.Outcome State Fault Refusal :=
  onEntry i s fun i => if p = .m ∧ s.addrLocked i = false then (s.writeAddr i wdata).quiet else s.quiet

/-- ADDRR (40_csr_codec.md R79): the level is accepted and ignored (R81). -/
def execAddrr (_p : Priv) (i : BitVec 8) (s : State) : Host.Outcome State Fault Refusal :=
  onEntry i s fun i => s.answer (s.addrAt i)

end Sys2Proof.Machine
end

