-- ==== Sys2Proof/Machine/Matcher.lean ====
section
/-! DEFINITION. The Address Matcher (41_address_matcher.md): the region of an entry and whether it contains an address. -/

namespace Sys2Proof.Machine

/-- A region: EMPTY, or the half-open interval [lo, hi) of naturals (41_address_matcher.md R96). -/
inductive Region where
  | empty
  | span (lo hi : Nat)
deriving DecidableEq, Repr

/-- Membership of a byte address in a region (41_address_matcher.md R96). -/
def Region.contains (r : Region) (a : Nat) : Bool :=
  match r with
  | .empty => false
  | .span lo hi => decide (lo ≤ a) && decide (a < hi)

/-- The NA4 region of an address word (41_address_matcher.md R85). -/
def na4Region (w : Word) : Region := .span (byteAddress w) (byteAddress w + 4)

/-- The NAPOT region of an address word (41_address_matcher.md R86, R87). -/
def napotRegion (x : Xlen) (w : Word) : Region :=
  .span (napotBase x w) (napotBase x w + napotSize x w)

/-- The TOR region of two bounds, EMPTY where lower ≥ upper (41_address_matcher.md R92, R96). -/
def torRegion (lower upper : Nat) : Region := if lower < upper then .span lower upper else .empty

/-- lower(i): 0 for entry 0, else the preceding address word's byte address, whatever the preceding entry's mode
(41_address_matcher.md R90; 90_conflicts.md C3). -/
def State.torLower (s : State) (i : Nat) : Nat :=
  match i with
  | 0 => 0
  | j + 1 => byteAddress (s.addrAt j)

/-- region(i), the boundary calculator (41_address_matcher.md R96). -/
def State.region (s : State) (i : Nat) : Region :=
  match modeOf (s.cfgAt i) with
  | .off => .empty
  | .tor => torRegion (s.torLower i) (byteAddress (s.addrAt i))
  | .na4 => na4Region (s.addrAt i)
  | .napot => napotRegion s.params.xlen (s.addrAt i)

/-- match(i, a) (41_address_matcher.md R83, R96). -/
def State.matchesAt (s : State) (i a : Nat) : Bool := (s.region i).contains a

end Sys2Proof.Machine
end

