-- ==== Sys2Proof/Machine/Engine.lean ====
section
/-! DEFINITION. The Permission Engine (42_permission_engine.md): the deciding entry and the verdict of a check, and the
meaning of CHECK. -/

namespace Sys2Proof.Machine

/-- The verdict of a check, one of two values (42_permission_engine.md R104). -/
inductive Verdict where
  /-- access permitted -/
  | ok
  /-- access denied -/
  | err
deriving DecidableEq, Repr

/-- The verdict on the `err` port (30_encoding.md R70). -/
def Verdict.bit : Verdict → BitVec 1
  | .ok => 0#1
  | .err => 1#1

/-- The first entry, lowest index first, whose region contains the address (42_permission_engine.md R98). -/
def State.decidingEntry (s : State) (a : Nat) : Option Nat :=
  (List.range s.params.n).find? fun i => s.matchesAt i a

/-- The verdict of a deciding entry's config byte: machine mode bypasses an unlocked entry (42_permission_engine.md R99),
else the selected permission bit decides (R100, R101). -/
def entryVerdict (p : Priv) (acc : Access) (c : Byte) : Verdict :=
  if p = .m ∧ lockBit c = false then .ok
  else if permits acc c then .ok
  else .err

/-- The verdict where no entry matches (42_permission_engine.md R102). -/
def defaultVerdict (p : Priv) : Verdict := if p = .m then .ok else .err

/-- The verdict of a check (42_permission_engine.md R97). -/
def State.verdict (s : State) (p : Priv) (acc : Access) (a : Nat) : Verdict :=
  match s.decidingEntry a with
  | some i => entryVerdict p acc (s.cfgAt i)
  | none => defaultVerdict p

/-- CHECK (42_permission_engine.md R97): the verdict of the address on the port, on `err`; no state written (R103). -/
def execCheck (p : Priv) (acc : Access) (addr : Word) (s : State) :
    Host.Outcome State Fault Refusal :=
  .next (s.judge (s.verdict p acc (s.params.port addr).toNat).bit)

end Sys2Proof.Machine
end

