-- ==== Sys2Proof/Machine/Reset.lean ====
section
/-! DEFINITION. The meaning of RESET (70_reset_and_hazards.md R123, R127). -/

namespace Sys2Proof.Machine

/-- RESET: the whole Register Store zero, locked entries as well, and no output. Power-on has the same effect
(60_exceptions.md R122). -/
def execReset (s : State) : Host.Outcome State Fault Refusal := .next s.zeroed.quiet

end Sys2Proof.Machine
end

