-- ==== Sys2Proof/Machine/Dispatch.lean ====
section
/-! DEFINITION. The dispatch: one arm per row of opcode_table.json. -/

namespace Sys2Proof.Machine

def exec (i : Instr) (s : State) : Host.Outcome State Fault Refusal :=
  match i with
  | .nop => Sys2Proof.Machine.execNop s
  | .cfgw p g wdata => Sys2Proof.Machine.execCfgw p g wdata s
  | .cfgr p g => Sys2Proof.Machine.execCfgr p g s
  | .addrw p e wdata => Sys2Proof.Machine.execAddrw p e wdata s
  | .addrr p e => Sys2Proof.Machine.execAddrr p e s
  | .check p acc addr => Sys2Proof.Machine.execCheck p acc addr s
  | .reset => Sys2Proof.Machine.execReset s

end Sys2Proof.Machine
end

