-- ==== Sys2Proof/Machine/Step.lean ====
section
/-! DEFINITION. One step: the operation on the input ports, performed whole (00_scope.md R14, 60_exceptions.md R113). -/

namespace Sys2Proof.Machine

/-- One step. The caller's oldest request is presented, decoded and performed; a ctl word that names no operation is
refused (30_encoding.md R61). -/
def step (s : State) : Host.Outcome State Fault Refusal :=
  match decodeRequest s.presented with
  | .ok i => exec i s.consumed
  | .error e => .refused (.encoding e)

/-- `s` with a row's bits on the input ports of the next step: the request stands first in the caller's list. -/
def State.withFetchWord (s : State) (nbits w : Nat) : State :=
  { s with pending := tableRequest nbits w :: s.pending }

end Sys2Proof.Machine
end

