-- ==== Sys2Proof/Machine/Pseudo.lean ====
section
/-! DEFINITION. The pseudo-operations of 30_encoding.md R72: each is the requests it expands to. CFGSETB is two separate
requests, the second made by the caller from the first one's read data. -/

namespace Sys2Proof.Machine

/-- PMPNAPOT i, B, S (30_encoding.md R72). -/
def pmpNapot (i : BitVec 8) (base size : Nat) : Instr := .addrw .m i (napotWord base size)

/-- PMPTOR i, T (30_encoding.md R72). -/
def pmpTor (i : BitVec 8) (top : Nat) : Instr := .addrw .m i (torWord top)

/-- PMPNA4 i, B (30_encoding.md R72). -/
def pmpNa4 (i : BitVec 8) (base : Nat) : Instr := .addrw .m i (na4Word base)

/-- The first request of CFGSETB g, b, v (30_encoding.md R72). -/
def cfgSetByteRead (g : BitVec 8) : Instr := .cfgr .m g

/-- The second request of CFGSETB g, b, v, where the first read w (30_encoding.md R72). -/
def cfgSetByteWrite (g : BitVec 8) (b : Nat) (v : Byte) (w : Word) : Instr :=
  .cfgw .m g (setByte w b v)

end Sys2Proof.Machine
end

