-- ==== Sys2Proof/Safety.lean ====
section
/-! DEFINITION. What claims call a good state and a safe step: the state's form, the admitted requests, and a step that
goes on. -/

namespace Sys2Proof.Machine

/-- The form of the Register Store: legal parameters (00_scope.md R6), N config bytes, N address words of XLEN bits
(10_state.md R16), and read data of XLEN bits (30_encoding.md R54). -/
def State.wf (s : State) : Bool :=
  s.params.wf && decide (s.cfg.length = s.params.n) && decide (s.pmpaddr.length = s.params.n) &&
    s.pmpaddr.all s.params.fits && s.rdata.all s.params.fits

/-- The requests the model gives a meaning: those of which no item of 30_encoding.md R61 holds, read off the bits of the
ctl word, and every request with rst = 1 (70_reset_and_hazards.md R127). -/
def admitted (p : Params) (r : Request) : Prop :=
  r.rst = true ∨
    (r.ctl.toNat % 8 ≤ 5 ∧
      r.ctl.toNat / 128 % 2 = 0 ∧
      (r.ctl.toNat % 8 = 0 ∨ r.ctl.toNat / 8 % 4 ≠ 2) ∧
      (r.ctl.toNat % 8 = 5 → r.ctl.toNat / 32 % 4 ≠ 3) ∧
      (r.ctl.toNat % 8 = 1 ∨ r.ctl.toNat % 8 = 2 → r.ctl.toNat / 256 < p.groups) ∧
      (r.ctl.toNat % 8 = 3 ∨ r.ctl.toNat % 8 = 4 → r.ctl.toNat / 256 < p.n))

/-- Entry i is the first entry whose region contains the address a (42_permission_engine.md R98). -/
def State.firstMatch (s : State) (a i : Nat) : Prop :=
  i < s.params.n ∧ s.matchesAt i a = true ∧ ∀ j < i, s.matchesAt j a = false

/-- No entry's region contains the address a (42_permission_engine.md R102). -/
def State.noMatch (s : State) (a : Nat) : Prop := ∀ i < s.params.n, s.matchesAt i a = false

/-- The bit of a config byte that an access type selects: R, W or X (42_permission_engine.md R100). -/
def permissionIndex : Access → Nat
  | .read => 0
  | .write => 1
  | .execute => 2

/-- A safe step: it answers a next state. -/
def State.goesOn (s : State) : Prop := ∃ t, step s = .next t

/-- The state after k steps that all go on (00_scope.md R14: a sequence of operations in the order presented). -/
def State.runSteps : Nat → State → Option State
  | 0, s => some s
  | k + 1, s =>
    match step s with
    | .next t => State.runSteps k t
    | .fault _ => none
    | .refused _ => none

end Sys2Proof.Machine
end

