-- ==== Sys2Proof/Certificates/Slice0/Obligations.lean ====
section
/-! DEFINITION. The statements about the PMP block for the provers. In each, `(s.cfgAt i).getLsbD 7` is L(cfg[i]),
`(s.cfgAt i).extractLsb' 3 2` is A(cfg[i]) with OFF 0, TOR 1, NA4 2, NAPOT 3, and `addr.toNat % 2 ^ s.params.xlen.bits` is
the address on the XLEN-bit port. -/

open Sys2Proof Sys2Proof.Machine

/-! ## Encoding (30_encoding.md; the request encoding is the spec's own decision D2 to D6, D21, D23) -/

/-- Decoding the ports that present an operation gives the operation back, for every operation and every operand value:
no operand bit is dropped. Rests on decisions D2 to D5. -/
def Obligations.DecodeOfEncodeIsIdentity : Prop :=
  ∀ i : Instr, decodeRequest (encode i) = .ok i

/-- The opcode map of R58 with every field at every value, the ignored fields of R62 free: acc outside CHECK, idx and
priv in NOP, idx in CHECK, and the data ports an operation does not read. Rests on decisions D3, D21. -/
def Obligations.OpcodeMapNamesTheOperation : Prop :=
  ∀ (idx : BitVec 8) (acc priv : BitVec 2) (p : Priv) (a : Access) (wdata addr : Word),
    decodeRequest ⟨false, ctlWord idx acc priv 0b000#3, wdata, addr⟩ = .ok .nop ∧
    decodeRequest ⟨false, ctlWord idx acc (privBits p) 0b001#3, wdata, addr⟩ = .ok (.cfgw p idx wdata) ∧
    decodeRequest ⟨false, ctlWord idx acc (privBits p) 0b010#3, wdata, addr⟩ = .ok (.cfgr p idx) ∧
    decodeRequest ⟨false, ctlWord idx acc (privBits p) 0b011#3, wdata, addr⟩ = .ok (.addrw p idx wdata) ∧
    decodeRequest ⟨false, ctlWord idx acc (privBits p) 0b100#3, wdata, addr⟩ = .ok (.addrr p idx) ∧
    decodeRequest ⟨false, ctlWord idx (accBits a) (privBits p) 0b101#3, wdata, addr⟩ = .ok (.check p a addr)

/-- Two requests decode to the same operation, or are refused for the same reason, when they agree on rst, op, rsv and
the fields and data ports their operation uses (R59, R62; decisions D15, D21). -/
def Obligations.IgnoredFieldsChangeNoOperation : Prop :=
  ∀ q r : Request, q.rst = r.rst →
    q.ctl.toNat % 8 = r.ctl.toNat % 8 →
    q.ctl.toNat / 128 % 2 = r.ctl.toNat / 128 % 2 →
    (q.ctl.toNat % 8 ≠ 0 → q.ctl.toNat / 8 % 4 = r.ctl.toNat / 8 % 4) →
    (q.ctl.toNat % 8 = 5 → q.ctl.toNat / 32 % 4 = r.ctl.toNat / 32 % 4 ∧ q.addr = r.addr) →
    (1 ≤ q.ctl.toNat % 8 ∧ q.ctl.toNat % 8 ≤ 4 → q.ctl.toNat / 256 = r.ctl.toNat / 256) →
    (q.ctl.toNat % 8 = 1 ∨ q.ctl.toNat % 8 = 3 → q.wdata = r.wdata) →
    decodeRequest q = decodeRequest r

/-- The decoder refuses a ctl word exactly in the cases 1 to 4 of R61 (decisions D9, D21; U5). -/
def Obligations.DecoderRefusesExactlyTheReservedEncodings : Prop :=
  ∀ r : Request,
    (∃ e, decodeRequest r = .error e) ↔
      r.rst = false ∧
        (6 ≤ r.ctl.toNat % 8 ∨ r.ctl.toNat / 128 % 2 = 1 ∨
          (r.ctl.toNat % 8 ≠ 0 ∧ r.ctl.toNat / 8 % 4 = 2) ∨
          (r.ctl.toNat % 8 = 5 ∧ r.ctl.toNat / 32 % 4 = 3))

/-- The control words R71 writes out in full decode to the requests they are written for (decision D23). -/
def Obligations.FrequentControlWordsDecode : Prop :=
  ∀ wdata addr : Word,
    decodeCtl 0x0000#16 wdata addr = .ok .nop ∧
    decodeCtl 0x0019#16 wdata addr = .ok (.cfgw .m 0 wdata) ∧
    decodeCtl 0x031A#16 wdata addr = .ok (.cfgr .m 3) ∧
    decodeCtl 0x0F1B#16 wdata addr = .ok (.addrw .m 15 wdata) ∧
    decodeCtl 0x001C#16 wdata addr = .ok (.addrr .m 0) ∧
    decodeCtl 0x0005#16 wdata addr = .ok (.check .u .read addr) ∧
    decodeCtl 0x000D#16 wdata addr = .ok (.check .s .read addr) ∧
    decodeCtl 0x003D#16 wdata addr = .ok (.check .m .write addr) ∧
    decodeCtl 0x005D#16 wdata addr = .ok (.check .m .execute addr)

/-! ## The step -/

/-- A step runs the operation on the input ports: the caller's oldest request leaves the list of requests and `exec` runs
what it decodes to. The list is the model's own (log 4). -/
def Obligations.StepRunsThePresentedOperation : Prop :=
  ∀ (s : State) (r : Request) (rest : List Request) (i : Instr),
    s.pending = r :: rest → decodeRequest r = .ok i → step s = exec i { s with pending := rest }

/-- A step whose ctl word names no operation is refused with the decoder's reason (R61, R111; decision D9). -/
def Obligations.StepRefusesWhatTheDecoderRefuses : Prop :=
  ∀ (s : State) (r : Request) (rest : List Request) (e : DecodeError),
    s.pending = r :: rest → decodeRequest r = .error e → step s = .refused (.encoding e)

/-- With nothing presented a step is NOP. The model's choice: log 5. -/
def Obligations.IdleStepLeavesTheStore : Prop :=
  ∀ s : State, s.pending = [] → step s = .next { s with rdata := none, err := none }

/-- A step goes on exactly when no item of R61 holds of the request on the ports (decisions D9, D16; U5, U6), in any
state of the store. -/
def Obligations.StepGoesOnExactlyForAdmittedRequests : Prop :=
  ∀ (s : State) (r : Request) (rest : List Request),
    s.pending = r :: rest → (s.goesOn ↔ admitted s.params r)

/-- A step with rst = 1 is RESET whatever ctl carries: the request is not performed and later requests see the reset
store (R127; decision D16). -/
def Obligations.ResetReplacesTheRequestOfItsStep : Prop :=
  ∀ (s : State) (ctl : BitVec 16) (wdata addr : Word) (rest : List Request),
    s.pending = ⟨true, ctl, wdata, addr⟩ :: rest →
      step s = .next { State.resetFor s.params with pending := rest }

/-- One action per step: a step takes one request off the caller's list and never changes the parameters (R113; decision
D16; logs 1 and 4). -/
def Obligations.StepTakesOneRequestAndKeepsParameters : Prop :=
  ∀ s t : State, step s = .next t → t.pending = s.pending.tail ∧ t.params = s.params

/-! ## The CSR codec (40_csr_codec.md) -/

/-- NOP leaves the store; no output has a value (R80; decisions D3, D15). -/
def Obligations.NopLeavesEverything : Prop :=
  ∀ s : State, exec .nop s = .next { s with rdata := none, err := none }

/-- R74. For every level, group below G, word and acc field: CFGW completes; below machine mode no byte changes; in machine
mode byte b of an unlocked entry of the group is replaced wholesale by bits 8*b+7 : 8*b of wdata, a locked entry keeps its
byte, and every config byte outside the group is unchanged. No address word, parameter or later request changes, and there
is no output. -/
def Obligations.CfgwReplacesUnlockedBytesOfItsGroup : Prop :=
  ∀ (s : State) (p : Priv) (g : BitVec 8) (acc : BitVec 2) (wdata addr : Word),
    s.wf = true → g.toNat < s.params.groups →
      decodeRequest ⟨false, ctlWord g acc (privBits p) 0b001#3, wdata, addr⟩ = .ok (.cfgw p g wdata) ∧
      ∃ t, exec (.cfgw p g wdata) s = .next t ∧
        t = { s with cfg := t.cfg, rdata := none, err := none } ∧
        t.cfg.length = s.cfg.length ∧
        (p ≠ .m → t.cfg = s.cfg) ∧
        (p = .m → ∀ b < s.params.k,
          t.cfgAt (g.toNat * s.params.k + b) =
            if (s.cfgAt (g.toNat * s.params.k + b)).getLsbD 7 = true then s.cfgAt (g.toNat * s.params.k + b)
            else wdata.extractLsb' (8 * b) 8) ∧
        (p = .m → ∀ i, i < g.toNat * s.params.k ∨ g.toNat * s.params.k + s.params.k ≤ i →
          t.cfgAt i = s.cfgAt i)

/-- R76 and R64. CFGR completes at every level with the same read data: byte b is cfg[g*K + b], locked or not, and nothing
lies above XLEN bits; nothing else changes. -/
def Obligations.CfgrReadsTheGroupLittleEndian : Prop :=
  ∀ (s : State) (g : BitVec 8), g.toNat < s.params.groups →
    ∃ w : Word,
      (∀ b < s.params.k, w.extractLsb' (8 * b) 8 = s.cfgAt (g.toNat * s.params.k + b)) ∧
      w.toNat < 2 ^ s.params.xlen.bits ∧
      ∀ (p : Priv) (acc : BitVec 2) (wdata addr : Word),
        decodeRequest ⟨false, ctlWord g acc (privBits p) 0b010#3, wdata, addr⟩ = .ok (.cfgr p g) ∧
        exec (.cfgr p g) s = .next { s with rdata := some w, err := none }

/-- Derived from R77, R78 and decision D12. ADDRW completes: in machine mode, where the address register is not locked,
the XLEN bits of wdata are stored verbatim in pmpaddr[i]; otherwise nothing changes. No config byte and no other address
word changes, and there is no output. The lock predicate of R77 is written out; its clause on TOR_PREV_LOCK and entry
i+1 is what the spec marks as its own decision D12, from general knowledge and not in its source (log 8). -/
def Obligations.AddrwStoresTheWordUnlessLocked : Prop :=
  ∀ (s : State) (p : Priv) (i : BitVec 8) (acc : BitVec 2) (wdata addr : Word),
    s.wf = true → i.toNat < s.params.n →
      decodeRequest ⟨false, ctlWord i acc (privBits p) 0b011#3, wdata, addr⟩ = .ok (.addrw p i wdata) ∧
      ∃ t, exec (.addrw p i wdata) s = .next t ∧
        t = { s with pmpaddr := t.pmpaddr, rdata := none, err := none } ∧
        t.pmpaddr.length = s.pmpaddr.length ∧
        (∀ j, j ≠ i.toNat → t.addrAt j = s.addrAt j) ∧
        (t.addrAt i.toNat).toNat =
          if p = .m ∧ (s.cfgAt i.toNat).getLsbD 7 = false ∧
              ¬(s.params.torPrevLock = true ∧ i.toNat + 1 < s.params.n ∧
                (s.cfgAt (i.toNat + 1)).getLsbD 7 = true ∧ (s.cfgAt (i.toNat + 1)).extractLsb' 3 2 = 1#2)
          then wdata.toNat % 2 ^ s.params.xlen.bits
          else (s.addrAt i.toNat).toNat

/-- R79. ADDRR completes at every level with the stored word verbatim, locked or not; nothing else changes. -/
def Obligations.AddrrReadsTheStoredWord : Prop :=
  ∀ (s : State) (p : Priv) (i : BitVec 8) (acc : BitVec 2) (wdata addr : Word),
    s.wf = true → i.toNat < s.params.n →
      decodeRequest ⟨false, ctlWord i acc (privBits p) 0b100#3, wdata, addr⟩ = .ok (.addrr p i) ∧
      ∃ w, s.pmpaddr[i.toNat]? = some w ∧ exec (.addrr p i) s = .next { s with rdata := some w, err := none }

/-- R60, R61 items 5 and 6: CFGW and CFGR of a group G or above, ADDRW and ADDRR of an entry N or above, are refused by
name at every level (decision D9; U6). -/
def Obligations.OutOfRangeIndicesAreRefused : Prop :=
  ∀ (s : State) (p : Priv) (e : BitVec 8) (w : Word),
    (s.params.groups ≤ e.toNat →
      exec (.cfgw p e w) s = .refused (.groupOutOfRange e.toNat) ∧
      exec (.cfgr p e) s = .refused (.groupOutOfRange e.toNat)) ∧
    (s.params.n ≤ e.toNat →
      exec (.addrw p e w) s = .refused (.entryOutOfRange e.toNat) ∧
      exec (.addrr p e) s = .refused (.entryOutOfRange e.toNat))

/-- R82's first property: a group written in machine mode while all its entries are unlocked reads back exactly the XLEN
bits written, at every level. Follows from R74 and R76. -/
def Obligations.UnlockedGroupWriteReadsBack : Prop :=
  ∀ (s t : State) (p : Priv) (g : BitVec 8) (wdata : Word),
    s.wf = true → (∀ b < s.params.k, (s.cfgAt (g.toNat * s.params.k + b)).getLsbD 7 = false) →
    exec (.cfgw .m g wdata) s = .next t →
      ∃ u w, exec (.cfgr p g) t = .next u ∧ u.rdata = some w ∧ w.toNat = wdata.toNat % 2 ^ s.params.xlen.bits

/-- R82's second property: an address register written in machine mode while addr_locked(i) is false reads back exactly
the XLEN bits written, at every level. Follows from R78 and R79. -/
def Obligations.UnlockedAddressWriteReadsBack : Prop :=
  ∀ (s t : State) (p : Priv) (i : BitVec 8) (wdata : Word),
    s.wf = true → s.addrLocked i.toNat = false → exec (.addrw .m i wdata) s = .next t →
      ∃ u w, exec (.addrr p i) t = .next u ∧ u.rdata = some w ∧ w.toNat = wdata.toNat % 2 ^ s.params.xlen.bits

/-- R47: a register write done twice in a row leaves what doing it once leaves, also where the first sets L. Follows from
R74 and R78. -/
def Obligations.RegisterWritesAreIdempotent : Prop :=
  ∀ (s t : State) (p : Priv) (e : BitVec 8) (w : Word),
    (exec (.cfgw p e w) s = .next t → exec (.cfgw p e w) t = .next t) ∧
    (exec (.addrw p e w) s = .next t → exec (.addrw p e w) t = .next t)

/-- R72's CFGSETB: the two requests of a byte's read-modify-write change an unlocked byte to v and no other register
(decision D22). -/
def Obligations.CfgsetbChangesOneByte : Prop :=
  ∀ (s t : State) (g : BitVec 8) (b : Nat) (v : Byte) (w : Word),
    s.wf = true → b < s.params.k → (s.cfgAt (g.toNat * s.params.k + b)).getLsbD 7 = false →
    exec (cfgSetByteRead g) s = .next t → t.rdata = some w →
      ∃ u, exec (cfgSetByteWrite g b v w) t = .next u ∧
        u.cfgAt (g.toNat * s.params.k + b) = v ∧
        (∀ i, i ≠ g.toNat * s.params.k + b → u.cfgAt i = s.cfgAt i) ∧ u.pmpaddr = s.pmpaddr

/-- R106: no operation tells S from U. A step whose request carries U's priv code answers exactly what it answers with S's
code in its place, all other bits and ports the same. Follows from R74, R76, R78, R79 and R97 (decision D4 for the codes). -/
def Obligations.SupervisorAndUserAreEquivalent : Prop :=
  ∀ (s : State) (rst : Bool) (idx : BitVec 8) (acc : BitVec 2) (op : BitVec 3) (wdata addr : Word)
    (rest : List Request),
    step { s with pending := ⟨rst, ctlWord idx acc (privBits .s) op, wdata, addr⟩ :: rest } =
      step { s with pending := ⟨rst, ctlWord idx acc (privBits .u) op, wdata, addr⟩ :: rest }

/-- R59: after an operation that goes on, rdata has a value exactly for CFGR and ADDRR and err exactly for CHECK
(decision D15; log 6). -/
def Obligations.OutputsHaveValuesOnlyWhereDefined : Prop :=
  ∀ (i : Instr) (s t : State), exec i s = .next t →
    (t.rdata.isSome = true ↔ (∃ p e, i = .cfgr p e) ∨ ∃ p e, i = .addrr p e) ∧
    (t.err.isSome = true ↔ ∃ p acc a, i = .check p acc a)

/-! ## The Address Matcher (41_address_matcher.md) -/

/-- R84: an OFF entry matches no address, whatever its word, and its word still is the lower bound of a TOR entry next to
it. -/
def Obligations.OffEntryMatchesNoAddress : Prop :=
  ∀ (s : State) (i a : Nat), (s.cfgAt i).extractLsb' 3 2 = 0#2 →
    s.matchesAt i a = false ∧
    ((s.cfgAt (i + 1)).extractLsb' 3 2 = 1#2 →
      (s.matchesAt (i + 1) a = true ↔ (s.addrAt i).toNat * 4 ≤ a ∧ a < (s.addrAt (i + 1)).toNat * 4))

/-- R85: an NA4 entry matches exactly the 4 bytes at its word times 4. -/
def Obligations.Na4EntryMatchesFourBytes : Prop :=
  ∀ (s : State) (i a : Nat), (s.cfgAt i).extractLsb' 3 2 = 2#2 →
    (s.matchesAt i a = true ↔ (s.addrAt i).toNat * 4 ≤ a ∧ a < (s.addrAt i).toNat * 4 + 4)

/-- R86 and R87, with the decode of conflict C4: a NAPOT entry whose word has exactly k trailing ones among its XLEN bits
matches exactly the 2^(k+3) bytes from the word with those ones cleared, times 4. k = XLEN is the all-ones word. -/
def Obligations.NapotEntryMatchesItsPowerOfTwo : Prop :=
  ∀ (s : State) (i a k : Nat), (s.cfgAt i).extractLsb' 3 2 = 3#2 →
    k ≤ s.params.xlen.bits →
    (∀ j < k, (s.addrAt i).getLsbD j = true) →
    (k < s.params.xlen.bits → (s.addrAt i).getLsbD k = false) →
    (s.matchesAt i a = true ↔
      ((s.addrAt i).toNat - (2 ^ k - 1)) * 4 ≤ a ∧ a < ((s.addrAt i).toNat - (2 ^ k - 1)) * 4 + 2 ^ (k + 3))

/-- R88: a NAPOT entry matches every XLEN-bit address when its word is k ones and nothing above them, for
k ≥ XLEN-3: all ones among them. Follows from R86 and R87 (conflicts C4, C10). -/
def Obligations.NapotWordOfOnesMatchesEveryAddress : Prop :=
  ∀ (s : State) (i a k : Nat), (s.cfgAt i).extractLsb' 3 2 = 3#2 →
    s.params.xlen.bits - 3 ≤ k → k ≤ s.params.xlen.bits → (s.addrAt i).toNat = 2 ^ k - 1 →
    a < 2 ^ s.params.xlen.bits → s.matchesAt i a = true

/-- R89: the A field alone selects NAPOT; a word with bit 0 clear is the 8-byte region at its byte address (conflict
C5). -/
def Obligations.NapotEvenWordMatchesEightBytes : Prop :=
  ∀ (s : State) (i a : Nat), (s.cfgAt i).extractLsb' 3 2 = 3#2 → (s.addrAt i).toNat % 2 = 0 →
    (s.matchesAt i a = true ↔ (s.addrAt i).toNat * 4 ≤ a ∧ a < (s.addrAt i).toNat * 4 + 8)

/-- R90, R91, R92: a TOR entry matches exactly from the preceding word times 4 (0 for entry 0), whatever the preceding
entry's config byte, up to its own word times 4, exclusive. -/
def Obligations.TorEntryMatchesUpToItsOwnWord : Prop :=
  ∀ (s : State) (i a : Nat), (s.cfgAt i).extractLsb' 3 2 = 1#2 →
    (s.matchesAt i a = true ↔
      (if i = 0 then 0 else (s.addrAt (i - 1)).toNat * 4) ≤ a ∧ a < (s.addrAt i).toNat * 4)

/-- R93: the region of a TOR entry above entry 0 is fixed by the two words alone, at any index and in any state. Follows
from R90 and R92. -/
def Obligations.TorRegionIsIndexIndependent : Prop :=
  ∀ (s t : State) (i j : Nat), 0 < i → 0 < j →
    (s.cfgAt i).extractLsb' 3 2 = 1#2 → (t.cfgAt j).extractLsb' 3 2 = 1#2 →
    s.addrAt i = t.addrAt j → s.addrAt (i - 1) = t.addrAt (j - 1) → s.region i = t.region j

/-- R83, R95: matching depends only on XLEN, A(cfg[i]), pmpaddr[i] and, for a TOR entry above entry 0, pmpaddr[i-1]: no
other config bit of any entry, no privilege, no access type. -/
def Obligations.MatcherReadsOnlyModeAndWords : Prop :=
  ∀ (s t : State) (i a : Nat), s.params.xlen = t.params.xlen →
    (s.cfgAt i).extractLsb' 3 2 = (t.cfgAt i).extractLsb' 3 2 → s.addrAt i = t.addrAt i →
    ((s.cfgAt i).extractLsb' 3 2 = 1#2 → 0 < i → s.addrAt (i - 1) = t.addrAt (i - 1)) →
    s.matchesAt i a = t.matchesAt i a

/-- R94: no bound wraps. An NA4 or NAPOT entry whose base is beyond the address space matches no XLEN-bit address, and a
TOR entry 0 whose top is beyond it matches every one (decision D10). -/
def Obligations.RegionsDoNotWrap : Prop :=
  ∀ (s : State) (i a : Nat), a < 2 ^ s.params.xlen.bits →
    ((s.cfgAt i).extractLsb' 3 2 = 2#2 → 2 ^ (s.params.xlen.bits - 2) ≤ (s.addrAt i).toNat →
      s.matchesAt i a = false) ∧
    ((s.cfgAt i).extractLsb' 3 2 = 3#2 → 2 ^ s.params.xlen.bits ≤ napotBase s.params.xlen (s.addrAt i) →
      s.matchesAt i a = false) ∧
    ((s.cfgAt 0).extractLsb' 3 2 = 1#2 → 2 ^ (s.params.xlen.bits - 2) ≤ (s.addrAt 0).toNat →
      s.matchesAt 0 a = true)

/-- R44: in a store of legal form every region is a non-empty interval whose bounds are multiples of 4, and a NAPOT base
is a multiple of the region's size. Follows from R85, R86, R90, R91. -/
def Obligations.RegionBoundsAreAligned : Prop :=
  ∀ (s : State) (i lo hi : Nat), s.wf = true → s.region i = .span lo hi →
    lo < hi ∧ lo % 4 = 0 ∧ hi % 4 = 0 ∧
      ((s.cfgAt i).extractLsb' 3 2 = 3#2 → (hi - lo) ∣ lo)

/-- R66: the word PMPNAPOT builds for a region of size 2^(k+3) at a base that is a multiple of it, within the address
space, makes a NAPOT entry match exactly that region (conflict C6). -/
def Obligations.NapotWordEncodesItsRegion : Prop :=
  ∀ (s : State) (i a k base : Nat), (s.cfgAt i).extractLsb' 3 2 = 3#2 →
    k + 3 ≤ s.params.xlen.bits → base % 2 ^ (k + 3) = 0 → base + 2 ^ (k + 3) ≤ 2 ^ s.params.xlen.bits →
    s.addrAt i = napotWord base (2 ^ (k + 3)) →
    (s.matchesAt i a = true ↔ base ≤ a ∧ a < base + 2 ^ (k + 3))

/-- R67, R68: the words PMPTOR and PMPNA4 build, for a top or base that is a multiple of 4 within the address space, make
a TOR entry 0 match exactly the addresses below the top, and an NA4 entry exactly the 4 bytes at the base. -/
def Obligations.TorAndNa4WordsEncodeTheirBounds : Prop :=
  ∀ (s : State) (i a x : Nat), x % 4 = 0 → x ≤ 2 ^ s.params.xlen.bits →
    ((s.cfgAt 0).extractLsb' 3 2 = 1#2 → s.addrAt 0 = torWord x → (s.matchesAt 0 a = true ↔ a < x)) ∧
    ((s.cfgAt i).extractLsb' 3 2 = 2#2 → s.addrAt i = na4Word x → (s.matchesAt i a = true ↔ x ≤ a ∧ a < x + 4))

/-! ## The Permission Engine (42_permission_engine.md) -/

/-- R97. CHECK completes for every level, access type and address, writes only the outputs, and answers on err: where
entry i is the first that matches, 0 for machine mode on an unlocked entry, else 0 or 1 as the selected permission bit is
1 or 0; where none matches, 0 for machine mode and 1 below it. -/
def Obligations.CheckAnswersTheVerdict : Prop :=
  ∀ (s : State) (p : Priv) (acc : Access) (idx : BitVec 8) (wdata addr : Word),
    decodeRequest ⟨false, ctlWord idx (accBits acc) (privBits p) 0b101#3, wdata, addr⟩ = .ok (.check p acc addr) ∧
    ∃ v : BitVec 1, exec (.check p acc addr) s = .next { s with rdata := none, err := some v } ∧
      (∀ i, s.firstMatch (addr.toNat % 2 ^ s.params.xlen.bits) i →
        v = if p = .m ∧ (s.cfgAt i).getLsbD 7 = false then 0#1
          else if (s.cfgAt i).getLsbD (permissionIndex acc) = true then 0#1 else 1#1) ∧
      (s.noMatch (addr.toNat % 2 ^ s.params.xlen.bits) → v = if p = .m then 0#1 else 1#1)

/-- R98: the first matching entry decides and no higher-index entry is consulted. Two stores that agree up to and
including their first matching entry give the same verdict, that entry's. -/
def Obligations.LowestMatchingEntryDecides : Prop :=
  ∀ (s t : State) (p : Priv) (acc : Access) (addr : Word) (i : Nat),
    s.params = t.params → (∀ j ≤ i, s.cfgAt j = t.cfgAt j ∧ s.addrAt j = t.addrAt j) →
    s.firstMatch (addr.toNat % 2 ^ s.params.xlen.bits) i →
    ∃ v : BitVec 1,
      exec (.check p acc addr) s = .next { s with rdata := none, err := some v } ∧
      exec (.check p acc addr) t = .next { t with rdata := none, err := some v } ∧
      (v = 0#1 ↔ (p = .m ∧ (s.cfgAt i).getLsbD 7 = false) ∨ (s.cfgAt i).getLsbD (permissionIndex acc) = true)

/-- R99: machine mode passes an unlocked deciding entry whatever its R, W and X bits. -/
def Obligations.MachineModeBypassesUnlockedEntries : Prop :=
  ∀ (s : State) (acc : Access) (addr : Word) (i : Nat),
    s.firstMatch (addr.toNat % 2 ^ s.params.xlen.bits) i → (s.cfgAt i).getLsbD 7 = false →
    exec (.check .m acc addr) s = .next { s with rdata := none, err := some 0#1 }

/-- R100, and R101's application of it at every level: below machine mode, or on a locked deciding entry at any level, the
verdict is the one permission bit acc selects. -/
def Obligations.SelectedPermissionBitDecides : Prop :=
  ∀ (s : State) (p : Priv) (acc : Access) (addr : Word) (i : Nat),
    s.firstMatch (addr.toNat % 2 ^ s.params.xlen.bits) i → (p ≠ .m ∨ (s.cfgAt i).getLsbD 7 = true) →
    exec (.check p acc addr) s =
      .next { s with
        rdata := none
        err := some (if (s.cfgAt i).getLsbD (permissionIndex acc) = true then 0#1 else 1#1) }

/-- R102: where no entry matches, machine mode is allowed and S and U are denied, for every access type. -/
def Obligations.DefaultPolicyWithoutAMatch : Prop :=
  ∀ (s : State) (acc : Access) (addr : Word), s.noMatch (addr.toNat % 2 ^ s.params.xlen.bits) →
    exec (.check .m acc addr) s = .next { s with rdata := none, err := some 0#1 } ∧
    exec (.check .s acc addr) s = .next { s with rdata := none, err := some 1#1 } ∧
    exec (.check .u acc addr) s = .next { s with rdata := none, err := some 1#1 }

/-- R103: a check writes no state, and its verdict is a function of cfg, pmpaddr, priv, acc and addr alone, in blocks of
the same parameters: not of earlier outputs or later requests, so the same check again gives the same verdict. -/
def Obligations.VerdictIsAFunctionOfTheStore : Prop :=
  ∀ (s t : State) (p : Priv) (acc : Access) (addr : Word),
    s.params = t.params → s.cfg = t.cfg → s.pmpaddr = t.pmpaddr →
    ∃ v : BitVec 1,
      exec (.check p acc addr) s = .next { s with rdata := none, err := some v } ∧
      exec (.check p acc addr) t = .next { t with rdata := none, err := some v }

/-- R29, the reserved bits in a check: two stores whose config bytes differ only in bits 6:5 give every check the same
verdict. -/
def Obligations.ReservedConfigBitsChangeNoVerdict : Prop :=
  ∀ (s t : State) (p : Priv) (acc : Access) (addr : Word),
    s.params = t.params → s.pmpaddr = t.pmpaddr →
    (∀ i, s.cfgAt i &&& 0x9F#8 = t.cfgAt i &&& 0x9F#8) →
    ∃ v : BitVec 1,
      exec (.check p acc addr) s = .next { s with rdata := none, err := some v } ∧
      exec (.check p acc addr) t = .next { t with rdata := none, err := some v }

/-! ## Reset (10_state.md R34, 70_reset_and_hazards.md) -/

/-- R123: rst = 1 decodes to RESET whatever the other ports carry, and RESET completes from every state: every config byte
and every address word is 0, locked or not, with no output; the parameters and the later requests are unchanged. RESET is the only operation that can
clear a lock bit. -/
def Obligations.ResetClearsTheWholeStore : Prop :=
  ∀ (s : State) (ctl : BitVec 16) (wdata addr : Word),
    decodeRequest ⟨true, ctl, wdata, addr⟩ = .ok .reset ∧
    ∃ t, exec .reset s = .next t ∧
      t = { s with cfg := t.cfg, pmpaddr := t.pmpaddr, rdata := none, err := none } ∧
      t.cfg.length = s.params.n ∧ t.pmpaddr.length = s.params.n ∧
      (∀ i < s.params.n, t.cfg[i]? = some 0#8 ∧ t.pmpaddr[i]? = some 0#64) ∧
      ∀ (o : Instr) (u : State) (i : Nat), o ≠ .reset → exec o s = .next u →
        (s.cfgAt i).getLsbD 7 = true → (u.cfgAt i).getLsbD 7 = true

/-- R34: after reset every cfg[i], every pmpaddr[i] and every CFGREG(g) is 0, for every N, XLEN and TOR_PREV_LOCK. -/
def Obligations.ResetValuesAreZero : Prop :=
  ∀ p : Params,
    (∀ i < p.n, (State.resetFor p).cfg[i]? = some 0#8 ∧ (State.resetFor p).pmpaddr[i]? = some 0#64) ∧
    (∀ g < p.groups, (State.resetFor p).readGroup g = 0#64)

/-- R124: right after RESET every check is OK in machine mode and ERR in S and U, for every address and access type, and
every CFGR and ADDRR returns 0. Follows from R123, R84, R102. -/
def Obligations.AfterResetOnlyMachineModePasses : Prop :=
  ∀ (s t : State), exec .reset s = .next t →
    (∀ (p : Priv) (acc : Access) (addr : Word),
      exec (.check p acc addr) t =
        .next { t with rdata := none, err := some (if p = .m then 0#1 else 1#1) }) ∧
    (∀ (p : Priv) (g : BitVec 8), g.toNat < t.params.groups →
      exec (.cfgr p g) t = .next { t with rdata := some 0#64, err := none }) ∧
    (∀ (p : Priv) (i : BitVec 8), i.toNat < t.params.n →
      exec (.addrr p i) t = .next { t with rdata := some 0#64, err := none })

/-! ## Invariants and whole-machine rules -/

/-- The reset state, and the reset of every block with legal parameters, has the form of the store: N config bytes and N
address words of XLEN bits (R6, R16). -/
def Obligations.ResetHasTheStoreForm : Prop :=
  State.reset.wf = true ∧ ∀ p : Params, p.wf = true → (State.resetFor p).wf = true

/-- Every step keeps the form of the store: legal parameters, N config bytes, N address words of XLEN bits and read data
of XLEN bits. -/
def Obligations.StepKeepsTheStoreForm : Prop :=
  ∀ s t : State, s.wf = true → step s = .next t → t.wf = true

/-- R125, R36, R30: a step other than RESET leaves a locked entry's config byte and address word unchanged, in any state:
no request clears an L bit. -/
def Obligations.LockedEntriesAreImmutable : Prop :=
  ∀ (s t : State) (i : Nat), step s = .next t → (∀ r, s.pending.head? = some r → r.rst = false) →
    (s.cfgAt i).getLsbD 7 = true → t.cfgAt i = s.cfgAt i ∧ t.addrAt i = s.addrAt i

/-- R125: an entry locked once keeps its config byte and address word along any run of any length, whatever requests the
caller presents at whatever level, as long as none of them is RESET. -/
def Obligations.LockedEntriesPersistAlongRuns : Prop :=
  ∀ (k : Nat) (s t : State) (i : Nat), State.runSteps k s = some t →
    (∀ r ∈ s.pending, r.rst = false) → (s.cfgAt i).getLsbD 7 = true →
    t.cfgAt i = s.cfgAt i ∧ t.addrAt i = s.addrAt i

/-- R101 with R36: once entry 0 is locked with the permission bit of an access type clear, an address it matches stays
denied to every level, machine mode included, along any run without RESET. Follows from R98, R100, R125. -/
def Obligations.LockedFirstEntryDeniesUntilReset : Prop :=
  ∀ (k : Nat) (s t : State) (p : Priv) (acc : Access) (addr : Word),
    State.runSteps k s = some t → (∀ r ∈ s.pending, r.rst = false) → 0 < s.params.n →
    (s.cfgAt 0).getLsbD 7 = true → (s.cfgAt 0).getLsbD (permissionIndex acc) = false →
    s.matchesAt 0 (addr.toNat % 2 ^ s.params.xlen.bits) = true →
    exec (.check p acc addr) t = .next { t with rdata := none, err := some 1#1 }

/-- R30's third item: with TOR_PREV_LOCK = true, a locked TOR entry i+1 also keeps pmpaddr[i] along every step other than
RESET (decision D12). -/
def Obligations.TorPrevLockKeepsThePrecedingWord : Prop :=
  ∀ (s t : State) (i : Nat), step s = .next t → (∀ r, s.pending.head? = some r → r.rst = false) →
    s.params.torPrevLock = true → i + 1 < s.params.n →
    (s.cfgAt (i + 1)).getLsbD 7 = true → (s.cfgAt (i + 1)).extractLsb' 3 2 = 1#2 →
    t.addrAt i = s.addrAt i

/-- With TOR_PREV_LOCK = false only the entry's own L guards its address register: the word below a locked TOR entry stays
writable in machine mode (R77, R78; conflict C2, decision D12, U12). -/
def Obligations.WithoutTorPrevLockTheBottomMoves : Prop :=
  ∀ (s : State) (i : BitVec 8) (w : Word), s.wf = true → s.params.torPrevLock = false →
    i.toNat + 1 < s.params.n → (s.cfgAt i.toNat).getLsbD 7 = false →
    (s.cfgAt (i.toNat + 1)).getLsbD 7 = true → s.params.fits w = true →
    ∃ t, exec (.addrw .m i w) s = .next t ∧ t.addrAt i.toNat = w

/-- R117, the M-only writes: a step whose request is no RESET and does not carry machine mode's priv code 0b11 changes no
config byte and no address word (R74, R78; decision D4 for the code). -/
def Obligations.OnlyMachineModeWritesTheStore : Prop :=
  ∀ (s t : State) (r : Request) (rest : List Request), s.pending = r :: rest → r.rst = false →
    r.ctl.toNat / 8 % 4 ≠ 3 → step s = .next t → t.cfg = s.cfg ∧ t.pmpaddr = s.pmpaddr
end

