-- ==== Sys2Proof/Laws/Decode.lean ====
section
/-! SUPPORT. The fields of a ctl word written out from its fields, and the codes of levels and access types. -/

namespace Sys2Proof

variable (idx : BitVec 8) (acc priv : BitVec 2) (op : BitVec 3)

/-- A ctl word as a number: idx·2^8 + acc·2^5 + priv·2^3 + op (30_encoding.md R55). -/
theorem ctlWord_toNat :
    (ctlWord idx acc priv op).toNat =
      idx.toNat * 2 ^ 8 + acc.toNat * 2 ^ 5 + priv.toNat * 2 ^ 3 + op.toNat := by
  have h1 := acc.isLt
  have h2 := priv.isLt
  have h3 := op.isLt
  have e (a b : Nat) (n : Nat) (h : b < 2 ^ n) : a <<< n ||| b = a * 2 ^ n + b := by
    rw [← Nat.shiftLeft_add_eq_or_of_lt h, Nat.shiftLeft_eq]
  simp only [ctlWord, BitVec.toNat_append]
  rw [e _ _ 3 h3, e _ _ 2 h2, e _ _ 2 h1, e _ _ 1 (by decide)]
  simp
  omega

theorem ctlOp_toNat (c : BitVec 16) : (ctlOp c).toNat = c.toNat % 8 := by
  simp [ctlOp, BitVec.extractLsb'_toNat]

theorem ctlPriv_toNat (c : BitVec 16) : (ctlPriv c).toNat = c.toNat / 8 % 4 := by
  simp [ctlPriv, BitVec.extractLsb'_toNat, Nat.shiftRight_eq_div_pow]

theorem ctlAcc_toNat (c : BitVec 16) : (ctlAcc c).toNat = c.toNat / 32 % 4 := by
  simp [ctlAcc, BitVec.extractLsb'_toNat, Nat.shiftRight_eq_div_pow]

theorem ctlRsv_toNat (c : BitVec 16) : (ctlRsv c).toNat = c.toNat / 128 % 2 := by
  simp [ctlRsv, BitVec.extractLsb'_toNat, Nat.shiftRight_eq_div_pow]

theorem ctlIdx_toNat (c : BitVec 16) : (ctlIdx c).toNat = c.toNat / 256 := by
  have := c.isLt
  simp only [ctlIdx, BitVec.extractLsb'_toNat, Nat.shiftRight_eq_div_pow]
  omega

@[simp] theorem ctlOp_ctlWord : ctlOp (ctlWord idx acc priv op) = op := by
  have h := op.isLt
  apply BitVec.eq_of_toNat_eq
  rw [ctlOp_toNat, ctlWord_toNat]
  omega

@[simp] theorem ctlPriv_ctlWord : ctlPriv (ctlWord idx acc priv op) = priv := by
  have h := op.isLt
  have h' := priv.isLt
  apply BitVec.eq_of_toNat_eq
  rw [ctlPriv_toNat, ctlWord_toNat]
  omega

@[simp] theorem ctlAcc_ctlWord : ctlAcc (ctlWord idx acc priv op) = acc := by
  have h := op.isLt
  have h' := priv.isLt
  have h'' := acc.isLt
  apply BitVec.eq_of_toNat_eq
  rw [ctlAcc_toNat, ctlWord_toNat]
  omega

@[simp] theorem ctlRsv_ctlWord : ctlRsv (ctlWord idx acc priv op) = 0#1 := by
  have h := op.isLt
  have h' := priv.isLt
  have h'' := acc.isLt
  apply BitVec.eq_of_toNat_eq
  rw [ctlRsv_toNat, ctlWord_toNat]
  simp
  omega

@[simp] theorem ctlIdx_ctlWord : ctlIdx (ctlWord idx acc priv op) = idx := by
  have h := op.isLt
  have h' := priv.isLt
  have h'' := acc.isLt
  apply BitVec.eq_of_toNat_eq
  rw [ctlIdx_toNat, ctlWord_toNat]
  omega

/-! ## Levels and access types -/

@[simp] theorem privOfBits_privBits (p : Priv) : privOfBits (privBits p) = some p := by
  cases p <;> rfl

@[simp] theorem accOfBits_accBits (a : Access) : accOfBits (accBits a) = some a := by
  cases a <;> rfl

theorem privOfBits_eq_none (b : BitVec 2) : privOfBits b = none ↔ b = 0b10#2 := by
  revert b
  decide

theorem accOfBits_eq_none (b : BitVec 2) : accOfBits b = none ↔ b = 0b11#2 := by
  revert b
  decide

/-- What a level-taking decoding answers, once for all. -/
theorem withPriv_cases (c : BitVec 16) (k : Priv → Except DecodeError Instr) :
    (∃ p, privOfBits (ctlPriv c) = some p ∧ withPriv c k = k p) ∨
      (ctlPriv c = 0b10#2 ∧ withPriv c k = .error .reservedPriv) := by
  unfold withPriv
  cases h : privOfBits (ctlPriv c) with
  | none => exact .inr ⟨(privOfBits_eq_none _).1 h, rfl⟩
  | some p => exact .inl ⟨p, rfl, rfl⟩

/-- What an access-taking decoding answers, once for all. -/
theorem withAcc_cases (c : BitVec 16) (k : Access → Except DecodeError Instr) :
    (∃ a, accOfBits (ctlAcc c) = some a ∧ withAcc c k = k a) ∨
      (ctlAcc c = 0b11#2 ∧ withAcc c k = .error .reservedAccess) := by
  unfold withAcc
  cases h : accOfBits (ctlAcc c) with
  | none => exact .inr ⟨(accOfBits_eq_none _).1 h, rfl⟩
  | some a => exact .inl ⟨a, rfl, rfl⟩

@[simp] theorem withPriv_ctlWord (p : Priv) (k : Priv → Except DecodeError Instr) :
    withPriv (ctlWord idx acc (privBits p) op) k = k p := by
  simp [withPriv]

@[simp] theorem withAcc_ctlWord (a : Access) (k : Access → Except DecodeError Instr) :
    withAcc (ctlWord idx (accBits a) priv op) k = k a := by
  simp [withAcc]

end Sys2Proof
end

