-- ==== Sys2Proof/Laws/State.lean ====
section
/-! SUPPORT. What every named update of the state does to every field, and what the readings of the Register Store see
after an update that leaves the store alone. -/

namespace Sys2Proof.Machine

variable (s : State)

/-! ## writeGroup -/

@[simp] theorem State.writeGroup_params (g : Nat) (w : Word) :
    (s.writeGroup g w).params = s.params := rfl
@[simp] theorem State.writeGroup_cfg (g : Nat) (w : Word) :
    (s.writeGroup g w).cfg = s.cfg.mapIdx fun i c =>
      if i / s.params.k = g ∧ lockBit c = false then byteOf w (i % s.params.k) else c := rfl
@[simp] theorem State.writeGroup_pmpaddr (g : Nat) (w : Word) :
    (s.writeGroup g w).pmpaddr = s.pmpaddr := rfl
@[simp] theorem State.writeGroup_rdata (g : Nat) (w : Word) :
    (s.writeGroup g w).rdata = s.rdata := rfl
@[simp] theorem State.writeGroup_err (g : Nat) (w : Word) :
    (s.writeGroup g w).err = s.err := rfl
@[simp] theorem State.writeGroup_pending (g : Nat) (w : Word) :
    (s.writeGroup g w).pending = s.pending := rfl

/-! ## writeAddr -/

@[simp] theorem State.writeAddr_params (i : Nat) (w : Word) :
    (s.writeAddr i w).params = s.params := rfl
@[simp] theorem State.writeAddr_cfg (i : Nat) (w : Word) :
    (s.writeAddr i w).cfg = s.cfg := rfl
@[simp] theorem State.writeAddr_pmpaddr (i : Nat) (w : Word) :
    (s.writeAddr i w).pmpaddr = s.pmpaddr.set i (s.params.port w) := rfl
@[simp] theorem State.writeAddr_rdata (i : Nat) (w : Word) :
    (s.writeAddr i w).rdata = s.rdata := rfl
@[simp] theorem State.writeAddr_err (i : Nat) (w : Word) :
    (s.writeAddr i w).err = s.err := rfl
@[simp] theorem State.writeAddr_pending (i : Nat) (w : Word) :
    (s.writeAddr i w).pending = s.pending := rfl

/-! ## zeroed -/

@[simp] theorem State.zeroed_params :
    (s.zeroed).params = s.params := rfl
@[simp] theorem State.zeroed_cfg :
    (s.zeroed).cfg = List.replicate s.params.n 0 := rfl
@[simp] theorem State.zeroed_pmpaddr :
    (s.zeroed).pmpaddr = List.replicate s.params.n 0 := rfl
@[simp] theorem State.zeroed_rdata :
    (s.zeroed).rdata = s.rdata := rfl
@[simp] theorem State.zeroed_err :
    (s.zeroed).err = s.err := rfl
@[simp] theorem State.zeroed_pending :
    (s.zeroed).pending = s.pending := rfl

/-! ## quiet -/

@[simp] theorem State.quiet_params :
    (s.quiet).params = s.params := rfl
@[simp] theorem State.quiet_cfg :
    (s.quiet).cfg = s.cfg := rfl
@[simp] theorem State.quiet_pmpaddr :
    (s.quiet).pmpaddr = s.pmpaddr := rfl
@[simp] theorem State.quiet_rdata :
    (s.quiet).rdata = none := rfl
@[simp] theorem State.quiet_err :
    (s.quiet).err = none := rfl
@[simp] theorem State.quiet_pending :
    (s.quiet).pending = s.pending := rfl

/-! ## answer -/

@[simp] theorem State.answer_params (w : Word) :
    (s.answer w).params = s.params := rfl
@[simp] theorem State.answer_cfg (w : Word) :
    (s.answer w).cfg = s.cfg := rfl
@[simp] theorem State.answer_pmpaddr (w : Word) :
    (s.answer w).pmpaddr = s.pmpaddr := rfl
@[simp] theorem State.answer_rdata (w : Word) :
    (s.answer w).rdata = some w := rfl
@[simp] theorem State.answer_err (w : Word) :
    (s.answer w).err = none := rfl
@[simp] theorem State.answer_pending (w : Word) :
    (s.answer w).pending = s.pending := rfl

/-! ## judge -/

@[simp] theorem State.judge_params (b : BitVec 1) :
    (s.judge b).params = s.params := rfl
@[simp] theorem State.judge_cfg (b : BitVec 1) :
    (s.judge b).cfg = s.cfg := rfl
@[simp] theorem State.judge_pmpaddr (b : BitVec 1) :
    (s.judge b).pmpaddr = s.pmpaddr := rfl
@[simp] theorem State.judge_rdata (b : BitVec 1) :
    (s.judge b).rdata = none := rfl
@[simp] theorem State.judge_err (b : BitVec 1) :
    (s.judge b).err = some b := rfl
@[simp] theorem State.judge_pending (b : BitVec 1) :
    (s.judge b).pending = s.pending := rfl

/-! ## consumed -/

@[simp] theorem State.consumed_params :
    (s.consumed).params = s.params := rfl
@[simp] theorem State.consumed_cfg :
    (s.consumed).cfg = s.cfg := rfl
@[simp] theorem State.consumed_pmpaddr :
    (s.consumed).pmpaddr = s.pmpaddr := rfl
@[simp] theorem State.consumed_rdata :
    (s.consumed).rdata = s.rdata := rfl
@[simp] theorem State.consumed_err :
    (s.consumed).err = s.err := rfl
@[simp] theorem State.consumed_pending :
    (s.consumed).pending = s.pending.tail := rfl

/-! ## withFetchWord -/

@[simp] theorem State.withFetchWord_params (nbits w : Nat) :
    (s.withFetchWord nbits w).params = s.params := rfl
@[simp] theorem State.withFetchWord_cfg (nbits w : Nat) :
    (s.withFetchWord nbits w).cfg = s.cfg := rfl
@[simp] theorem State.withFetchWord_pmpaddr (nbits w : Nat) :
    (s.withFetchWord nbits w).pmpaddr = s.pmpaddr := rfl
@[simp] theorem State.withFetchWord_rdata (nbits w : Nat) :
    (s.withFetchWord nbits w).rdata = s.rdata := rfl
@[simp] theorem State.withFetchWord_err (nbits w : Nat) :
    (s.withFetchWord nbits w).err = s.err := rfl
@[simp] theorem State.withFetchWord_pending (nbits w : Nat) :
    (s.withFetchWord nbits w).pending = tableRequest nbits w :: s.pending := rfl

/-! ## Readings of the store after updates that leave it alone -/

@[simp] theorem State.quiet_cfgAt (i : Nat) : (s.quiet).cfgAt i = s.cfgAt i := rfl
@[simp] theorem State.quiet_addrAt (i : Nat) : (s.quiet).addrAt i = s.addrAt i := rfl
@[simp] theorem State.quiet_matchesAt (i a : Nat) : (s.quiet).matchesAt i a = s.matchesAt i a := rfl
@[simp] theorem State.answer_cfgAt (w : Word) (i : Nat) : (s.answer w).cfgAt i = s.cfgAt i := rfl
@[simp] theorem State.answer_addrAt (w : Word) (i : Nat) : (s.answer w).addrAt i = s.addrAt i := rfl
@[simp] theorem State.answer_matchesAt (w : Word) (i a : Nat) : (s.answer w).matchesAt i a = s.matchesAt i a := rfl
@[simp] theorem State.judge_cfgAt (b : BitVec 1) (i : Nat) : (s.judge b).cfgAt i = s.cfgAt i := rfl
@[simp] theorem State.judge_addrAt (b : BitVec 1) (i : Nat) : (s.judge b).addrAt i = s.addrAt i := rfl
@[simp] theorem State.judge_matchesAt (b : BitVec 1) (i a : Nat) : (s.judge b).matchesAt i a = s.matchesAt i a := rfl
@[simp] theorem State.consumed_cfgAt (i : Nat) : (s.consumed).cfgAt i = s.cfgAt i := rfl
@[simp] theorem State.consumed_addrAt (i : Nat) : (s.consumed).addrAt i = s.addrAt i := rfl
@[simp] theorem State.consumed_matchesAt (i a : Nat) : (s.consumed).matchesAt i a = s.matchesAt i a := rfl

/-! ## The state after reset -/

variable (p : Params)

@[simp] theorem State.resetFor_params : (State.resetFor p).params = p := rfl
@[simp] theorem State.resetFor_cfg : (State.resetFor p).cfg = List.replicate p.n 0 := rfl
@[simp] theorem State.resetFor_pmpaddr : (State.resetFor p).pmpaddr = List.replicate p.n 0 := rfl
@[simp] theorem State.resetFor_rdata : (State.resetFor p).rdata = none := rfl
@[simp] theorem State.resetFor_err : (State.resetFor p).err = none := rfl
@[simp] theorem State.resetFor_pending : (State.resetFor p).pending = [] := rfl

end Sys2Proof.Machine
end

