-- ==== Sys2Proof/Laws/Words.lean ====
section
/-! SUPPORT. The operand forms: an XLEN-bit port, the bytes of a configuration word, the count of trailing ones. -/

namespace Sys2Proof

/-! ## Parameters -/

theorem Params.k_pos (p : Params) : 0 < p.k := by
  unfold Params.k
  cases p.xlen <;> decide

/-- K entries of 8 bits fill one configuration register (00_scope.md R7). -/
theorem Params.k_mul_eight (p : Params) : 8 * p.k = p.xlen.bits := by
  unfold Params.k
  cases p.xlen <;> rfl

/-- Every entry of an admitted group exists (00_scope.md R6, R8). -/
theorem Params.group_entry_lt (p : Params) (g b : Nat) (hg : g < p.groups) (hb : b < p.k) :
    g * p.k + b < p.n := by
  have h : (g + 1) * p.k ≤ p.n :=
    le_trans (Nat.mul_le_mul_right _ hg) (Nat.div_mul_le_self p.n p.k)
  have e : (g + 1) * p.k = g * p.k + p.k := Nat.succ_mul g p.k
  omega

/-- An XLEN-bit port carries the low XLEN bits. -/
theorem Params.port_toNat (p : Params) (w : Word) : (p.port w).toNat = w.toNat % 2 ^ p.xlen.bits := by
  have hw := w.isLt
  unfold Params.port Xlen.bits
  cases p.xlen
  · simp only [BitVec.toNat_setWidth]
    omega
  · exact (Nat.mod_eq_of_lt hw).symm

@[simp] theorem Params.fits_iff (p : Params) (w : Word) :
    p.fits w = true ↔ w.toNat < 2 ^ p.xlen.bits := by
  simp [Params.fits]

/-- What a port carries is an XLEN-bit value. -/
theorem Params.port_fits (p : Params) (w : Word) : p.fits (p.port w) = true := by
  rw [p.fits_iff, p.port_toNat]
  exact Nat.mod_lt _ (Nat.two_pow_pos _)

/-- A port carries an XLEN-bit value verbatim. -/
theorem Params.port_of_fits (p : Params) (w : Word) (h : p.fits w = true) : p.port w = w := by
  apply BitVec.eq_of_toNat_eq
  rw [p.port_toNat, Nat.mod_eq_of_lt ((p.fits_iff w).1 h)]

namespace Machine

/-! ## Configuration words -/

theorem byteOf_zero_pack (c : Byte) (cs : List Byte) : byteOf (packBytes (c :: cs)) 0 = c := by
  apply BitVec.eq_of_getLsbD_eq
  intro i hi
  simp only [byteOf, packBytes, BitVec.getLsbD_extractLsb', BitVec.getLsbD_or, BitVec.getLsbD_shiftLeft,
    BitVec.getLsbD_setWidth]
  have h64 : i < 64 := by omega
  simp [hi, h64]

theorem byteOf_succ_pack (c : Byte) (cs : List Byte) (b : Nat) (hb : b + 1 < 8) :
    byteOf (packBytes (c :: cs)) (b + 1) = byteOf (packBytes cs) b := by
  apply BitVec.eq_of_getLsbD_eq
  intro i hi
  simp only [byteOf, packBytes, BitVec.getLsbD_extractLsb', BitVec.getLsbD_or, BitVec.getLsbD_shiftLeft,
    BitVec.getLsbD_setWidth]
  have h1 : 8 * (b + 1) + i < 64 := by omega
  have h2 : ¬ 8 * (b + 1) + i < 8 := by omega
  have h3 : 8 * (b + 1) + i - 8 = 8 * b + i := by omega
  have h4 : c.getLsbD (8 * (b + 1) + i) = false := BitVec.getLsbD_of_ge _ _ (by omega)
  simp [hi, h1, h2, h3, h4]

/-- Byte b of the packed word is the b-th byte (30_encoding.md R64). -/
theorem byteOf_packBytes (cs : List Byte) (b : Nat) (h8 : cs.length ≤ 8) (hb : b < cs.length) :
    byteOf (packBytes cs) b = cs.getD b 0 := by
  induction cs generalizing b with
  | nil => simp at hb
  | cons c cs ih =>
    simp only [List.length_cons] at h8 hb
    cases b with
    | zero => simpa using byteOf_zero_pack c cs
    | succ b =>
      rw [byteOf_succ_pack c cs b (by omega), ih b (by omega) (by omega)]
      simp

/-- The packed word has no bits beyond its bytes. -/
theorem packBytes_lt (cs : List Byte) (h8 : cs.length ≤ 8) :
    (packBytes cs).toNat < 2 ^ (8 * cs.length) := by
  induction cs with
  | nil => simp [packBytes]
  | cons c cs ih =>
    simp only [List.length_cons] at h8
    have hc := c.isLt
    have hi := ih (by omega)
    have e : 2 ^ (8 * (cs.length + 1)) = 2 ^ 8 * 2 ^ (8 * cs.length) := by rw [← pow_add]; congr 1; omega
    simp only [packBytes, BitVec.toNat_or, BitVec.toNat_shiftLeft, BitVec.toNat_setWidth, List.length_cons]
    apply Nat.or_lt_two_pow
    · apply lt_of_le_of_lt (Nat.mod_le _ _)
      rw [Nat.shiftLeft_eq, e, mul_comm]
      exact Nat.mul_lt_mul_of_pos_left hi (by decide)
    · apply lt_of_le_of_lt (Nat.mod_le _ _)
      apply lt_of_lt_of_le hc
      exact Nat.pow_le_pow_right (by decide) (by omega)

/-- CFGSETB's merge: byte b is the new one, every other byte the old one (30_encoding.md R72). -/
theorem byteOf_setByte (w : Word) (b b' : Nat) (v : Byte) (hb' : b' < 8) :
    byteOf (setByte w b v) b' = if b' = b then v else byteOf w b' := by
  apply BitVec.eq_of_getLsbD_eq
  intro i hi
  have h64 : 8 * b' + i < 64 := by omega
  have hm : ∀ n, (0xFF#64).getLsbD n = decide (n < 8) := by
    intro n
    by_cases hn : n < 64
    · have : ∀ n : Fin 64, (0xFF#64).getLsbD n = decide (n.val < 8) := by decide
      exact this ⟨n, hn⟩
    · rw [BitVec.getLsbD_of_ge _ _ (by omega)]; simp; omega
  simp only [byteOf, setByte, BitVec.getLsbD_extractLsb', BitVec.getLsbD_or, BitVec.getLsbD_and, BitVec.getLsbD_not,
    BitVec.getLsbD_shiftLeft, BitVec.getLsbD_setWidth, hm]
  by_cases h : b' = b
  · subst h
    simp [hi, h64]
    omega
  · simp only [if_neg h, BitVec.getLsbD_extractLsb']
    rcases Nat.lt_or_gt_of_ne h with hlt | hgt
    · have : 8 * b' + i < 8 * b := by omega
      simp [hi, h64, this]
    · have h1 : ¬ 8 * b' + i < 8 * b := by omega
      have h2 : ¬ 8 * b' + i - 8 * b < 8 := by omega
      have h3 : v.getLsbD (8 * b' + i - 8 * b) = false := BitVec.getLsbD_of_ge _ _ (by omega)
      simp [hi, h64, h1, h2, h3]

/-! ## Trailing ones -/

theorem onesFrom_le (w : Word) (fuel at_ : Nat) : onesFrom w fuel at_ ≤ fuel := by
  induction fuel generalizing at_ with
  | zero => simp [onesFrom]
  | succ fuel ih =>
    simp only [onesFrom]
    split
    · exact Nat.succ_le_succ (ih _)
    · exact Nat.zero_le _

/-- Every bit the count covers is one, and the bit after it is zero unless the count is complete. -/
theorem onesFrom_spec (w : Word) (fuel at_ : Nat) :
    (∀ j < onesFrom w fuel at_, w.getLsbD (at_ + j) = true) ∧
      (onesFrom w fuel at_ < fuel → w.getLsbD (at_ + onesFrom w fuel at_) = false) := by
  induction fuel generalizing at_ with
  | zero => simp [onesFrom]
  | succ fuel ih =>
    obtain ⟨h1, h2⟩ := ih (at_ + 1)
    simp only [onesFrom]
    split
    · rename_i hb
      refine ⟨fun j hj => ?_, fun hlt => ?_⟩
      · cases j with
        | zero => simpa using hb
        | succ j =>
          have := h1 j (by omega)
          rwa [show at_ + (j + 1) = at_ + 1 + j by omega]
      · have := h2 (by omega)
        rwa [show at_ + (onesFrom w fuel (at_ + 1) + 1) = at_ + 1 + onesFrom w fuel (at_ + 1) by omega]
    · rename_i hb
      simpa using hb

theorem tones_le (x : Xlen) (w : Word) : tones x w ≤ x.bits := onesFrom_le w x.bits 0

/-- The bits below tones(v) are ones (00_scope.md R13). -/
theorem tones_ones (x : Xlen) (w : Word) (j : Nat) (h : j < tones x w) : w.getLsbD j = true := by
  have := (onesFrom_spec w x.bits 0).1 j h
  simpa using this

/-- The bit at tones(v) is the lowest-order zero bit, if there is one (41_address_matcher.md R86). -/
theorem tones_zero (x : Xlen) (w : Word) (h : tones x w < x.bits) : w.getLsbD (tones x w) = false := by
  have := (onesFrom_spec w x.bits 0).2 h
  simpa [tones] using this

/-- tones(v) is the only count with ones below it and a zero at it. -/
theorem tones_eq (x : Xlen) (w : Word) (k : Nat) (hk : k ≤ x.bits) (h1 : ∀ j < k, w.getLsbD j = true)
    (h0 : k < x.bits → w.getLsbD k = false) : tones x w = k := by
  rcases lt_trichotomy (tones x w) k with h | h | h
  · have := tones_zero x w (by omega)
    rw [h1 _ h] at this
    contradiction
  · exact h
  · have := tones_ones x w k h
    have hle := tones_le x w
    rw [h0 (by omega)] at this
    contradiction

end Machine

end Sys2Proof
end

