-- ==== Sys2Proof/Laws/Store.lean ====
section
/-! SUPPORT. The Register Store: what its readings see after its updates, and that every update keeps its form. -/

namespace Sys2Proof.Machine

/-! ## Readings after updates -/

theorem State.cfgAt_eq (s : State) (i : Nat) (h : i < s.cfg.length) : s.cfg[i]? = some (s.cfgAt i) := by
  simp [State.cfgAt, List.getElem?_eq_getElem h]

theorem State.addrAt_eq (s : State) (i : Nat) (h : i < s.pmpaddr.length) :
    s.pmpaddr[i]? = some (s.addrAt i) := by
  simp [State.addrAt, List.getElem?_eq_getElem h]

/-- cfg[i] after a group write: its byte of the word where i is an unlocked entry of the group, else as before
(40_csr_codec.md R74). -/
theorem State.writeGroup_cfgAt (s : State) (g : Nat) (w : Word) (i : Nat) (h : i < s.cfg.length) :
    (s.writeGroup g w).cfgAt i =
      if i / s.params.k = g ∧ s.isLocked i = false then byteOf w (i % s.params.k) else s.cfgAt i := by
  simp [State.cfgAt, State.isLocked, List.getD_eq_getElem?_getD, List.getElem?_mapIdx, List.getElem?_eq_getElem h]

/-- Beyond the store a group write changes nothing. -/
theorem State.writeGroup_cfgAt_of_ge (s : State) (g : Nat) (w : Word) (i : Nat) (h : s.cfg.length ≤ i) :
    (s.writeGroup g w).cfgAt i = s.cfgAt i := by
  simp [State.cfgAt, List.getD_eq_getElem?_getD, List.getElem?_mapIdx, List.getElem?_eq_none h]

@[simp] theorem State.writeGroup_addrAt (s : State) (g : Nat) (w : Word) (i : Nat) :
    (s.writeGroup g w).addrAt i = s.addrAt i := rfl

@[simp] theorem State.writeAddr_cfgAt (s : State) (j : Nat) (w : Word) (i : Nat) :
    (s.writeAddr j w).cfgAt i = s.cfgAt i := rfl

/-- pmpaddr[i] after a write of pmpaddr[j] (40_csr_codec.md R78). -/
theorem State.writeAddr_addrAt (s : State) (j : Nat) (w : Word) (i : Nat) (h : j < s.pmpaddr.length) :
    (s.writeAddr j w).addrAt i = if i = j then s.params.port w else s.addrAt i := by
  by_cases e : i = j
  · subst e
    simp [State.addrAt, List.getD_eq_getElem?_getD, h]
  · simp [State.addrAt, List.getD_eq_getElem?_getD, e, List.getElem?_set_ne (Ne.symm e)]

@[simp] theorem State.zeroed_cfgAt (s : State) (i : Nat) : s.zeroed.cfgAt i = 0 := by
  simp [State.cfgAt, List.getD_eq_getElem?_getD, List.getElem?_replicate]
  split <;> rfl

@[simp] theorem State.zeroed_addrAt (s : State) (i : Nat) : s.zeroed.addrAt i = 0 := by
  simp [State.addrAt, List.getD_eq_getElem?_getD, List.getElem?_replicate]
  split <;> rfl

/-- Byte b of CFGREG(g) is cfg[g*K + b] (30_encoding.md R64). -/
theorem State.byteOf_readGroup (s : State) (g b : Nat) (hb : b < s.params.k) :
    byteOf (s.readGroup g) b = s.cfgAt (g * s.params.k + b) := by
  have h8 : s.params.k ≤ 8 := by
    unfold Params.k
    cases s.params.xlen <;> decide
  rw [State.readGroup, byteOf_packBytes _ _ (by simpa using h8) (by simpa using hb)]
  simp [List.getD_eq_getElem?_getD, hb]

/-- CFGREG(g) is an XLEN-bit value. -/
theorem State.readGroup_fits (s : State) (g : Nat) : s.params.fits (s.readGroup g) = true := by
  have h8 : s.params.k ≤ 8 := by
    unfold Params.k
    cases s.params.xlen <;> decide
  rw [s.params.fits_iff, ← s.params.k_mul_eight]
  have := packBytes_lt ((List.range s.params.k).map fun b => s.cfgAt (g * s.params.k + b)) (by simpa using h8)
  simpa [State.readGroup] using this

/-- The lock predicate of an address register spelled out (40_csr_codec.md R77). -/
theorem State.addrLocked_iff (s : State) (i : Nat) :
    s.addrLocked i = true ↔
      s.isLocked i = true ∨
        (s.params.torPrevLock = true ∧ i + 1 < s.params.n ∧ s.isLocked (i + 1) = true ∧
          modeOf (s.cfgAt (i + 1)) = .tor) := by
  simp [State.addrLocked, and_assoc]

/-! ## The form of the store -/

theorem State.wf_iff (s : State) :
    s.wf = true ↔
      s.params.wf = true ∧ s.cfg.length = s.params.n ∧ s.pmpaddr.length = s.params.n ∧
        (∀ w ∈ s.pmpaddr, s.params.fits w = true) ∧ (∀ w, s.rdata = some w → s.params.fits w = true) := by
  cases h : s.rdata <;> simp [State.wf, and_assoc, h]

theorem State.wf_addrAt_fits (s : State) (h : s.wf = true) (i : Nat) : s.params.fits (s.addrAt i) = true := by
  obtain ⟨-, -, -, hf, -⟩ := (s.wf_iff).1 h
  by_cases hi : i < s.pmpaddr.length
  · have : s.addrAt i ∈ s.pmpaddr := List.mem_of_getElem? (s.addrAt_eq i hi)
    exact hf _ this
  · rw [show s.addrAt i = 0 by simp [State.addrAt, List.getD_eq_getElem?_getD, List.getElem?_eq_none (not_lt.1 hi)]]
    simp

theorem State.writeGroup_wf (s : State) (g : Nat) (w : Word) (h : s.wf = true) :
    (s.writeGroup g w).wf = true := by
  rw [State.wf_iff] at h ⊢
  simpa using h

theorem State.writeAddr_wf (s : State) (i : Nat) (w : Word) (h : s.wf = true) :
    (s.writeAddr i w).wf = true := by
  rw [State.wf_iff] at h ⊢
  obtain ⟨h1, h2, h3, h4, h5⟩ := h
  refine ⟨h1, h2, by simpa using h3, fun v hv => ?_, h5⟩
  rcases List.mem_or_eq_of_mem_set hv with hv | rfl
  · exact h4 v hv
  · exact s.params.port_fits w

theorem State.zeroed_wf (s : State) (h : s.wf = true) : s.zeroed.wf = true := by
  rw [State.wf_iff] at h ⊢
  obtain ⟨h1, -, -, -, h5⟩ := h
  refine ⟨h1, by simp, by simp, fun v hv => ?_, h5⟩
  obtain rfl := List.eq_of_mem_replicate hv
  simp

theorem State.quiet_wf (s : State) (h : s.wf = true) : s.quiet.wf = true := by
  rw [State.wf_iff] at h ⊢
  exact ⟨h.1, h.2.1, h.2.2.1, h.2.2.2.1, by simp⟩

theorem State.judge_wf (s : State) (b : BitVec 1) (h : s.wf = true) : (s.judge b).wf = true := by
  rw [State.wf_iff] at h ⊢
  exact ⟨h.1, h.2.1, h.2.2.1, h.2.2.2.1, by simp⟩

theorem State.answer_wf (s : State) (w : Word) (h : s.wf = true) (hw : s.params.fits w = true) :
    (s.answer w).wf = true := by
  rw [State.wf_iff] at h ⊢
  refine ⟨h.1, h.2.1, h.2.2.1, h.2.2.2.1, fun v hv => ?_⟩
  obtain rfl : w = v := by simpa using hv
  exact hw

theorem State.consumed_wf (s : State) : s.consumed.wf = s.wf := rfl

end Sys2Proof.Machine
end

