-- ==== Sys2Proof/Laws/Matcher.lean ====
section
/-! SUPPORT. The Address Matcher and the Permission Engine: membership by mode, the deciding entry, the verdict. -/

namespace Sys2Proof.Machine

theorem byteAddress_eq (w : Word) : byteAddress w = w.toNat * 4 := by
  simp [byteAddress, Nat.shiftLeft_eq]

@[simp] theorem Region.contains_empty (a : Nat) : Region.empty.contains a = false := rfl

@[simp] theorem Region.contains_span (lo hi a : Nat) :
    (Region.span lo hi).contains a = true ↔ lo ≤ a ∧ a < hi := by
  simp [Region.contains]

/-- Dropping an empty interval changes no membership (41_address_matcher.md R96). -/
theorem torRegion_contains (lower upper a : Nat) :
    (torRegion lower upper).contains a = true ↔ lower ≤ a ∧ a < upper := by
  unfold torRegion
  split
  · simp
  · simp
    omega

/-- The mode as the 2-bit field A (10_state.md R24, R28). -/
theorem modeOf_eq (c : Byte) :
    (c.extractLsb' 3 2 = 0#2 → modeOf c = .off) ∧ (c.extractLsb' 3 2 = 1#2 → modeOf c = .tor) ∧
      (c.extractLsb' 3 2 = 2#2 → modeOf c = .na4) ∧ (c.extractLsb' 3 2 = 3#2 → modeOf c = .napot) := by
  revert c
  decide

/-- The 2-bit field A of each mode (10_state.md R28). -/
theorem modeOf_bits (c : Byte) :
    c.extractLsb' 3 2 = match modeOf c with
      | .off => 0#2
      | .tor => 1#2
      | .na4 => 2#2
      | .napot => 3#2 := by
  revert c
  decide

theorem State.matchesAt_off (s : State) (i a : Nat) (h : modeOf (s.cfgAt i) = .off) :
    s.matchesAt i a = false := by
  simp [State.matchesAt, State.region, h]

theorem State.matchesAt_na4 (s : State) (i a : Nat) (h : modeOf (s.cfgAt i) = .na4) :
    s.matchesAt i a = true ↔ byteAddress (s.addrAt i) ≤ a ∧ a < byteAddress (s.addrAt i) + 4 := by
  simp [State.matchesAt, State.region, h, na4Region]

theorem State.matchesAt_tor (s : State) (i a : Nat) (h : modeOf (s.cfgAt i) = .tor) :
    s.matchesAt i a = true ↔ s.torLower i ≤ a ∧ a < byteAddress (s.addrAt i) := by
  simp [State.matchesAt, State.region, h, torRegion_contains]

theorem State.matchesAt_napot (s : State) (i a : Nat) (h : modeOf (s.cfgAt i) = .napot) :
    s.matchesAt i a = true ↔
      napotBase s.params.xlen (s.addrAt i) ≤ a ∧
        a < napotBase s.params.xlen (s.addrAt i) + napotSize s.params.xlen (s.addrAt i) := by
  simp [State.matchesAt, State.region, h, napotRegion]

/-- A NAPOT word with exactly k trailing ones (41_address_matcher.md R86). -/
theorem State.matchesAt_napot_ones (s : State) (i a k : Nat) (h : modeOf (s.cfgAt i) = .napot)
    (hk : k ≤ s.params.xlen.bits) (h1 : ∀ j < k, (s.addrAt i).getLsbD j = true)
    (h0 : k < s.params.xlen.bits → (s.addrAt i).getLsbD k = false) :
    s.matchesAt i a = true ↔
      ((s.addrAt i).toNat - (2 ^ k - 1)) * 4 ≤ a ∧
        a < ((s.addrAt i).toNat - (2 ^ k - 1)) * 4 + 2 ^ (k + 3) := by
  rw [s.matchesAt_napot i a h, napotBase, napotSize, tones_eq _ _ k hk h1 h0, Nat.shiftLeft_eq]

/-- Matching depends on A, the entry's word and, for TOR, the preceding word (41_address_matcher.md R83). -/
theorem State.matchesAt_congr (s t : State) (i a : Nat) (hx : s.params.xlen = t.params.xlen)
    (hm : modeOf (s.cfgAt i) = modeOf (t.cfgAt i)) (hw : s.addrAt i = t.addrAt i)
    (hp : modeOf (s.cfgAt i) = .tor → s.torLower i = t.torLower i) : s.matchesAt i a = t.matchesAt i a := by
  unfold State.matchesAt State.region
  rw [hx, hm, hw]
  cases h : modeOf (t.cfgAt i) <;> simp_all

/-- The deciding entry is the first that matches (42_permission_engine.md R98). -/
theorem State.decidingEntry_eq_some (s : State) (a i : Nat) :
    s.decidingEntry a = some i ↔
      i < s.params.n ∧ s.matchesAt i a = true ∧ ∀ j < i, s.matchesAt j a = false := by
  simp [State.decidingEntry, List.find?_range_eq_some]
  tauto

theorem State.decidingEntry_eq_none (s : State) (a : Nat) :
    s.decidingEntry a = none ↔ ∀ i < s.params.n, s.matchesAt i a = false := by
  simp [State.decidingEntry]

theorem State.verdict_of_first (s : State) (p : Priv) (acc : Access) (a i : Nat) (hi : i < s.params.n)
    (hm : s.matchesAt i a = true) (hf : ∀ j < i, s.matchesAt j a = false) :
    s.verdict p acc a = entryVerdict p acc (s.cfgAt i) := by
  rw [State.verdict, (s.decidingEntry_eq_some a i).2 ⟨hi, hm, hf⟩]

theorem State.verdict_of_none (s : State) (p : Priv) (acc : Access) (a : Nat)
    (h : ∀ i < s.params.n, s.matchesAt i a = false) : s.verdict p acc a = defaultVerdict p := by
  rw [State.verdict, (s.decidingEntry_eq_none a).2 h]

/-- The bit on `err` for a deciding entry (42_permission_engine.md R97, 30_encoding.md R70). -/
theorem entryVerdict_bit (p : Priv) (acc : Access) (c : Byte) :
    (entryVerdict p acc c).bit =
      if (p = .m ∧ lockBit c = false) ∨ permits acc c = true then 0#1 else 1#1 := by
  unfold entryVerdict
  by_cases h : p = .m ∧ lockBit c = false <;> by_cases h' : permits acc c = true <;> simp [h, h', Verdict.bit]

/-- The bit on `err` where no entry matches (42_permission_engine.md R102). -/
theorem defaultVerdict_bit (p : Priv) : (defaultVerdict p).bit = if p = .m then 0#1 else 1#1 := by
  cases p <;> rfl

end Sys2Proof.Machine
end

