-- ==== Sys2Proof/Laws/Exec.lean ====
section
/-! SUPPORT. What each meaning answers, once: the equations of a next state, and the inversions from one. -/

namespace Sys2Proof.Machine

/-! ## The shared shapes -/

theorem onGroup_next_iff (g : BitVec 8) (s t : State) (k : Nat → State) :
    onGroup g s k = .next t ↔ g.toNat < s.params.groups ∧ t = k g.toNat := by
  unfold onGroup
  split <;> simp_all [eq_comm]

theorem onEntry_next_iff (i : BitVec 8) (s t : State) (k : Nat → State) :
    onEntry i s k = .next t ↔ i.toNat < s.params.n ∧ t = k i.toNat := by
  unfold onEntry
  split <;> simp_all [eq_comm]

/-! ## One lemma per meaning -/

theorem execNop_next_iff (s t : State) : execNop s = .next t ↔ t = s.quiet := by
  simp [execNop, eq_comm]

theorem execCfgw_next_iff (p : Priv) (g : BitVec 8) (wdata : Word) (s t : State) :
    execCfgw p g wdata s = .next t ↔
      g.toNat < s.params.groups ∧
        t = if p = .m then (s.writeGroup g.toNat wdata).quiet else s.quiet := by
  rw [execCfgw, onGroup_next_iff]

theorem execCfgr_next_iff (p : Priv) (g : BitVec 8) (s t : State) :
    execCfgr p g s = .next t ↔ g.toNat < s.params.groups ∧ t = s.answer (s.readGroup g.toNat) := by
  rw [execCfgr, onGroup_next_iff]

theorem execAddrw_next_iff (p : Priv) (i : BitVec 8) (wdata : Word) (s t : State) :
    execAddrw p i wdata s = .next t ↔
      i.toNat < s.params.n ∧
        t = if p = .m ∧ s.addrLocked i.toNat = false then (s.writeAddr i.toNat wdata).quiet else s.quiet := by
  rw [execAddrw, onEntry_next_iff]

theorem execAddrr_next_iff (p : Priv) (i : BitVec 8) (s t : State) :
    execAddrr p i s = .next t ↔ i.toNat < s.params.n ∧ t = s.answer (s.addrAt i.toNat) := by
  rw [execAddrr, onEntry_next_iff]

theorem execCheck_next_iff (p : Priv) (acc : Access) (addr : Word) (s t : State) :
    execCheck p acc addr s = .next t ↔
      t = s.judge (s.verdict p acc (s.params.port addr).toNat).bit := by
  simp [execCheck, eq_comm]

theorem execReset_next_iff (s t : State) : execReset s = .next t ↔ t = s.zeroed.quiet := by
  simp [execReset, eq_comm]

/-- Everything an operation that answers a next state can do to the Register Store: nothing, one group write, one address
write, or a reset; the outputs aside, nothing else changes. -/
theorem exec_next_store (i : Instr) (s t : State) (h : exec i s = .next t) :
    t.params = s.params ∧ t.pending = s.pending ∧
      ((t.cfg = s.cfg ∧ t.pmpaddr = s.pmpaddr) ∨
        (∃ g w, i = .cfgw .m g w ∧ g.toNat < s.params.groups ∧
          t.cfg = (s.writeGroup g.toNat w).cfg ∧ t.pmpaddr = s.pmpaddr) ∨
        (∃ e w, i = .addrw .m e w ∧ e.toNat < s.params.n ∧ s.addrLocked e.toNat = false ∧
          t.cfg = s.cfg ∧ t.pmpaddr = (s.writeAddr e.toNat w).pmpaddr) ∨
        (i = .reset ∧ t.cfg = s.zeroed.cfg ∧ t.pmpaddr = s.zeroed.pmpaddr)) := by
  cases i with
  | nop => obtain rfl := (execNop_next_iff s t).1 h; simp
  | cfgw p g w =>
    obtain ⟨hg, rfl⟩ := (execCfgw_next_iff p g w s t).1 h
    split
    · subst p
      exact ⟨rfl, rfl, .inr (.inl ⟨g, w, rfl, hg, rfl, rfl⟩)⟩
    · simp
  | cfgr p g => obtain ⟨hg, rfl⟩ := (execCfgr_next_iff p g s t).1 h; simp
  | addrw p e w =>
    obtain ⟨he, rfl⟩ := (execAddrw_next_iff p e w s t).1 h
    split
    · rename_i hc
      obtain ⟨rfl, hl⟩ := hc
      exact ⟨rfl, rfl, .inr (.inr (.inl ⟨e, w, rfl, he, hl, rfl, rfl⟩))⟩
    · simp
  | addrr p e => obtain ⟨he, rfl⟩ := (execAddrr_next_iff p e s t).1 h; simp
  | check p acc a => obtain rfl := (execCheck_next_iff p acc a s t).1 h; simp
  | reset =>
    obtain rfl := (execReset_next_iff s t).1 h
    exact ⟨rfl, rfl, .inr (.inr (.inr ⟨rfl, rfl, rfl⟩))⟩

/-! ## The step -/

theorem step_of_decoded (s : State) (i : Instr) (h : decodeRequest s.presented = .ok i) :
    step s = exec i s.consumed := by
  simp [step, h]

/-- A step that goes on decoded an operation and ran it. -/
theorem step_next_cases (s t : State) (h : step s = .next t) :
    ∃ i, decodeRequest s.presented = .ok i ∧ exec i s.consumed = .next t := by
  unfold step at h
  split at h
  · exact ⟨_, ‹_›, h⟩
  · cases h

theorem State.runSteps_zero (s t : State) : State.runSteps 0 s = some t ↔ s = t := by
  simp [State.runSteps]

/-- A run of k + 1 steps is a step that goes on and a run of k steps. -/
theorem State.runSteps_succ (k : Nat) (s t : State) :
    State.runSteps (k + 1) s = some t ↔ ∃ u, step s = .next u ∧ State.runSteps k u = some t := by
  simp only [State.runSteps]
  cases step s <;> simp

/-- Only rst = 1 decodes to RESET (70_reset_and_hazards.md R123, R127). -/
theorem decodeRequest_eq_reset (r : Request) : decodeRequest r = .ok .reset ↔ r.rst = true := by
  unfold decodeRequest
  cases r.rst
  · simp only [Bool.false_eq_true, if_false, iff_false]
    unfold decodeCtl
    split
    · simp
    · split
      case h_1 => simp
      case h_7 => simp
      case h_6 =>
        rcases withPriv_cases r.ctl fun p => withAcc r.ctl fun a => .ok (.check p a r.addr) with ⟨p, -, e⟩ | ⟨-, e⟩
        · rw [e]
          rcases withAcc_cases r.ctl fun a => .ok (.check p a r.addr) with ⟨a, -, e⟩ | ⟨-, e⟩ <;> rw [e] <;> simp
        · rw [e]; simp
      all_goals (unfold withPriv; split <;> simp)
  · simp

end Sys2Proof.Machine
end

