-- ==== Sys2Proof/Laws/PerInstr.lean ====
section
/-! SUPPORT. Per-instruction law TableRow: the word the encoder writes carries the fixed bits of the operation's row of
opcode_table.json. -/

namespace Sys2Proof.Laws.TableRow

/-- The match value of an operation's CTL16 row under mask 0x0087; RESET has the RST row. -/
def rowMatch : Instr → Option (BitVec 16)
  | .nop => some 0x0000#16
  | .cfgw _ _ _ => some 0x0001#16
  | .cfgr _ _ => some 0x0002#16
  | .addrw _ _ _ => some 0x0003#16
  | .addrr _ _ => some 0x0004#16
  | .check _ _ _ => some 0x0005#16
  | .reset => none

/-- The encoded request is the RST row's (rst = 1) or carries its CTL16 row's fixed bits with rst = 0. -/
def Statement (i : Instr) : Prop :=
  match rowMatch i with
  | some m => (encode i).rst = false ∧ (encode i).ctl &&& 0x0087#16 = m
  | none => (encode i).rst = true

/-- The fixed bits of a ctl word with rsv = 0 are its op. -/
theorem ctlWord_and_mask (idx : BitVec 8) (acc priv : BitVec 2) (op : BitVec 3) :
    ctlWord idx acc priv op &&& 0x0087#16 = op.setWidth 16 := by
  have hr := ctlRsv_ctlWord idx acc priv op
  have ho := ctlOp_ctlWord idx acc priv op
  generalize ctlWord idx acc priv op = c at hr ho
  rw [← ho]
  apply BitVec.eq_of_getLsbD_eq
  intro j hj
  have h7 : c.getLsbD 7 = false := by
    have := congrArg (fun v => BitVec.getLsbD v 0) hr
    simpa [ctlRsv] using this
  have hm : ∀ j : Fin 16, (0x0087#16).getLsbD j = (decide (j.val < 3) || decide (j.val = 7)) := by decide
  rw [BitVec.getLsbD_and, hm ⟨j, hj⟩, BitVec.getLsbD_setWidth, ctlOp, BitVec.getLsbD_extractLsb']
  by_cases h3 : j < 3
  · simp [hj, h3]
  · by_cases e : j = 7
    · subst e
      simpa using h7
    · simp [h3, e]

theorem nop : Statement .nop := ⟨rfl, by rw [encode, ctlRequest, ctlWord_and_mask]; rfl⟩

theorem cfgw (p : Priv) (g : BitVec 8) (w : Word) : Statement (.cfgw p g w) :=
  ⟨rfl, by rw [encode, ctlRequest, ctlWord_and_mask]; rfl⟩

theorem cfgr (p : Priv) (g : BitVec 8) : Statement (.cfgr p g) :=
  ⟨rfl, by rw [encode, ctlRequest, ctlWord_and_mask]; rfl⟩

theorem addrw (p : Priv) (i : BitVec 8) (w : Word) : Statement (.addrw p i w) :=
  ⟨rfl, by rw [encode, ctlRequest, ctlWord_and_mask]; rfl⟩

theorem addrr (p : Priv) (i : BitVec 8) : Statement (.addrr p i) :=
  ⟨rfl, by rw [encode, ctlRequest, ctlWord_and_mask]; rfl⟩

theorem check (p : Priv) (acc : Access) (a : Word) : Statement (.check p acc a) :=
  ⟨rfl, by rw [encode, ctlRequest, ctlWord_and_mask]; rfl⟩

theorem reset : Statement .reset := rfl

end Sys2Proof.Laws.TableRow
end

