-- ==== Sys2Proof/WellFormed.lean ====
section
/-! DEFINITION. Which operations are well formed for a block of given parameters: indices in range (30_encoding.md R60)
and data operands of XLEN bits (R54). -/

namespace Sys2Proof

/-- The operand ranges of each operation (30_encoding.md R54, R60). -/
def Instr.wf (p : Params) : Instr → Bool
  | .nop => true
  | .cfgw _ g wdata => decide (g.toNat < p.groups) && p.fits wdata
  | .cfgr _ g => decide (g.toNat < p.groups)
  | .addrw _ i wdata => decide (i.toNat < p.n) && p.fits wdata
  | .addrr _ i => decide (i.toNat < p.n)
  | .check _ _ addr => p.fits addr
  | .reset => true

end Sys2Proof
end

