-- ==== Sys2Proof/Tests/Slice0.lean ====
section
/-! SUPPORT. Named tests with results from spec/95_test_vectors.md and the rules' own examples, the WellFormed smoke test,
and for every statement with hypotheses a witness that meets them. -/

namespace Sys2Proof.Tests

open Sys2Proof Sys2Proof.Machine

/-! ## Small stores -/

/-- XLEN = 64, N = 16 (spec V1.13). -/
def rv64 : Params := { xlen := .rv64, n := 16, torPrevLock := false }

/-- XLEN = 32, N = 16, TOR_PREV_LOCK = true (spec V2.7). -/
def rv32Prev : Params := { xlen := .rv32, n := 16, torPrevLock := true }

/-- The reset store of `p` with its first config bytes and address words as given. -/
def store (p : Params) (cs : List Byte) (ws : List Word) : State :=
  { State.resetFor p with
    cfg := cs ++ List.replicate (p.n - cs.length) 0
    pmpaddr := ws ++ List.replicate (p.n - ws.length) 0 }

/-- The same store with one request presented. -/
def presents (s : State) (ctl : BitVec 16) (wdata : Word) : State :=
  { s with pending := [⟨false, ctl, wdata, wdata⟩] }

/-- A test on the next state of an operation. -/
def after (i : Instr) (s : State) (test : State → Bool) : Bool :=
  match exec i s with
  | .next t => test t
  | .fault _ => false
  | .refused _ => false

/-- Whether a step is refused for this reason. -/
def refusedFor (s : State) (r : Refusal) : Bool :=
  match step s with
  | .next _ => false
  | .fault _ => false
  | .refused q => decide (q = r)

/-- Entry 0 NAPOT [0x40000000, 0x40001000) with R (spec E1). -/
def page : State := store Params.standard [0x19#8] [0x100001FF#64]

/-- Entry 0 a locked NA4 with no permission, entry 1 NAPOT with R and W (spec P3). -/
def guarded : State := store Params.standard [0x90#8, 0x1B#8] [0x10000000#64, 0x100001FF#64]

/-- Entry 5 a locked TOR above entry 4, TOR_PREV_LOCK true or false (spec P2, V2.6, V2.7). -/
def lockedTor (p : Params) : State :=
  store p [0#8, 0#8, 0#8, 0#8, 0#8, 0x8B#8] [0#64, 0#64, 0#64, 0#64, 0x10000000#64, 0x20000000#64]

/-! ## WellFormed: one ill-formed term for each check (30_encoding.md R54, R60) -/

theorem test_wf_accepts_the_last_indices :
    Instr.wf Params.standard (.cfgw .m 3 0xFFFFFFFF#64) = true ∧ Instr.wf Params.standard (.cfgr .u 3) = true ∧
      Instr.wf Params.standard (.addrw .m 15 0xFFFFFFFF#64) = true ∧ Instr.wf Params.standard (.addrr .s 15) = true ∧
      Instr.wf Params.standard (.check .u .read 0xFFFFFFFF#64) = true ∧ Instr.wf rv64 (.cfgw .m 1 0#64) = true := by
  decide

theorem test_wf_refuses_group_G :
    Instr.wf Params.standard (.cfgw .m 4 0#64) = false ∧ Instr.wf Params.standard (.cfgr .m 4) = false ∧
      Instr.wf rv64 (.cfgw .m 2 0#64) = false := by decide

theorem test_wf_refuses_entry_N :
    Instr.wf Params.standard (.addrw .m 16 0#64) = false ∧ Instr.wf Params.standard (.addrr .m 16) = false := by decide

theorem test_wf_refuses_words_beyond_xlen :
    Instr.wf Params.standard (.cfgw .m 0 0x100000000#64) = false ∧
      Instr.wf Params.standard (.addrw .m 0 0x100000000#64) = false ∧
      Instr.wf Params.standard (.check .m .read 0x100000000#64) = false := by decide

/-! ## Decoding: words written out bit by bit as iiiiiiii0aappooo (30_encoding.md R55, R71; spec V3) -/

theorem test_decode_nop : decodeCtl 0b00000000_0_00_00_000#16 0 0 = .ok .nop := rfl

/-- spec V3.2 and V3.3: NOP's don't-cares. -/
theorem test_decode_nop_dont_cares :
    decodeCtl 0b11111111_0_11_11_000#16 0 0 = .ok .nop ∧ decodeCtl 0b00000000_0_00_10_000#16 0 0 = .ok .nop := ⟨rfl, rfl⟩

theorem test_decode_cfgw : decodeCtl 0b00000011_0_00_00_001#16 5#64 7#64 = .ok (.cfgw .u 3 5#64) := rfl

theorem test_decode_cfgr : decodeCtl 0b00000001_0_00_11_010#16 5#64 7#64 = .ok (.cfgr .m 1) := rfl

theorem test_decode_addrw : decodeCtl 0b00001111_0_00_01_011#16 5#64 7#64 = .ok (.addrw .s 15 5#64) := rfl

theorem test_decode_addrr : decodeCtl 0b00000101_0_00_11_100#16 5#64 7#64 = .ok (.addrr .m 5) := rfl

theorem test_decode_check : decodeCtl 0b00000000_0_10_01_101#16 5#64 7#64 = .ok (.check .s .execute 7#64) := rfl

theorem test_decode_reset : decodeRequest ⟨true, 0x0019#16, 5#64, 7#64⟩ = .ok .reset := rfl

/-- spec V3.4 to V3.8: the refused encodings, each by name. -/
theorem test_decode_refusals :
    decodeCtl 0x0006#16 0 0 = .error .reservedOp ∧ decodeCtl 0x0007#16 0 0 = .error .reservedOp ∧
      decodeCtl 0x0099#16 0 0 = .error .reservedBit ∧ decodeCtl 0x0011#16 0 0 = .error .reservedPriv ∧
      decodeCtl 0x007D#16 0 0 = .error .reservedAccess := ⟨rfl, rfl, rfl, rfl, rfl⟩

/-- The seven rows of opcode_table.json, each on its own match value. -/
theorem test_table_rows_decode :
    decodeTableWord 16 0 = some .nop ∧ decodeTableWord 16 1 = some (.cfgw .u 0 0) ∧
      decodeTableWord 16 2 = some (.cfgr .u 0) ∧ decodeTableWord 16 3 = some (.addrw .u 0 0) ∧
      decodeTableWord 16 4 = some (.addrr .u 0) ∧ decodeTableWord 16 5 = some (.check .u .read 0) ∧
      decodeTableWord 8 1 = some .reset := by decide

/-- withFetchWord puts the row's bits where the next step takes them: here a refused one (spec V3.8). -/
theorem test_step_runs_the_fetch_word :
    refusedFor (State.reset.withFetchWord 16 0x007D) (.encoding .reservedAccess) = true := by decide

/-! ## The instructions, one step each -/

/-- spec V3.1. -/
theorem test_nop_leaves_the_store : after .nop page (fun t => decide (t = page)) = true := by decide

/-- spec V1.1: each byte to its own entry, little-endian. -/
theorem test_cfgw_splits_the_word :
    after (.cfgw .m 0 0x80191F09#64) State.reset
      (fun t => decide (t.cfg.take 5 = [0x09#8, 0x1F#8, 0x19#8, 0x80#8, 0#8])) = true := by decide

/-- spec E5 step 3: a locked byte stays, its siblings are written. -/
theorem test_cfgw_keeps_a_locked_byte :
    after (.cfgw .m 0 0x1F1F1F1F#64) (store Params.standard [0#8, 0x80#8] [])
      (fun t => decide (t.cfg.take 5 = [0x1F#8, 0x80#8, 0x1F#8, 0x1F#8, 0#8])) = true := by decide

/-- spec E5 step 5. -/
theorem test_cfgr_packs_the_group :
    after (.cfgr .u 0) (store Params.standard [0x1F#8, 0x80#8, 0x1F#8, 0x1F#8, 0xFF#8] [])
      (fun t => decide (t.rdata = some 0x1F1F801F#64)) = true := by decide

/-- spec V1.13: eight bytes a group with XLEN = 64. -/
theorem test_cfgr_rv64 :
    after (.cfgr .m 0) (store rv64 [0x19#8, 0#8, 0#8, 0#8, 0#8, 0#8, 0#8, 0x80#8, 0x55#8] [])
      (fun t => decide (t.rdata = some 0x8000000000000019#64)) = true := by decide

/-- spec V2.6: with TOR_PREV_LOCK = false only the own lock guards. -/
theorem test_addrw_below_a_locked_tor :
    after (.addrw .m 4 0x1234#64) (lockedTor Params.standard) (fun t => decide (t.addrAt 4 = 0x1234#64)) = true := by decide

/-- spec V2.7: with TOR_PREV_LOCK = true the write is discarded. -/
theorem test_addrw_tor_prev_lock :
    after (.addrw .m 4 0x1234#64) (lockedTor rv32Prev) (fun t => decide (t.addrAt 4 = 0x10000000#64)) = true := by decide

/-- spec E6 step 4. -/
theorem test_addrr_reads_verbatim :
    after (.addrr .u 1) (store Params.standard [0x80#8, 0x80#8] [0#64, 0xDEADBEEF#64])
      (fun t => decide (t.rdata = some 0xDEADBEEF#64)) = true := by decide

/-- spec P3 step 6: a locked entry binds machine mode. -/
theorem test_check_locked_entry_denies_machine :
    after (.check .m .read 0x40000002#64) guarded (fun t => decide (t.err = some 1#1)) = true := by decide

/-- spec E1 step 4: the last byte of a NAPOT region. -/
theorem test_check_last_byte_of_napot :
    after (.check .u .read 0x40000FFF#64) page (fun t => decide (t.err = some 0#1)) = true := by decide

/-- spec V3.12: reset clears a locked entry. -/
theorem test_reset_clears_locks : after .reset guarded (fun t => decide (t = State.reset)) = true := by decide

/-- spec V2.11: the entry index N is refused by name. -/
theorem test_addrw_entry_N_is_refused :
    refusedFor (presents State.reset 0x101B#16 0) (.entryOutOfRange 16) = true := by decide

/-! ## Region decoding (spec V4.7, V4.14, V4.30; 30_encoding.md R66) -/

theorem test_napot_region_one_trailing_one : napotRegion .rv32 0x401#64 = .span 0x1000 0x1010 := by decide

theorem test_napot_region_above_the_space :
    napotRegion .rv32 0xBFFFFFFF#64 = .span 0x200000000 0x400000000 := by decide

theorem test_tor_lower_bound_ignores_the_mode :
    (store Params.standard [0x18#8, 0x09#8] [0x100001FF#64, 0x20000000#64]).region 1 = .span 0x400007FC 0x80000000 := by
  decide

theorem test_napot_word : napotWord 0x80000000 0x80000000 = 0x2FFFFFFF#64 := by decide

/-! ## Witnesses: states and operands that meet each statement's hypotheses -/

theorem witness_IgnoredFieldsChangeNoOperation :
    let q : Request := ⟨false, 0x0079#16, 5#64, 1#64⟩
    let r : Request := ⟨false, 0x0019#16, 5#64, 2#64⟩
    q.rst = r.rst ∧ q.ctl.toNat % 8 = r.ctl.toNat % 8 ∧ q.ctl.toNat / 128 % 2 = r.ctl.toNat / 128 % 2 ∧
      (q.ctl.toNat % 8 ≠ 0 → q.ctl.toNat / 8 % 4 = r.ctl.toNat / 8 % 4) ∧
      (q.ctl.toNat % 8 = 5 → q.ctl.toNat / 32 % 4 = r.ctl.toNat / 32 % 4 ∧ q.addr = r.addr) ∧
      (1 ≤ q.ctl.toNat % 8 ∧ q.ctl.toNat % 8 ≤ 4 → q.ctl.toNat / 256 = r.ctl.toNat / 256) ∧
      (q.ctl.toNat % 8 = 1 ∨ q.ctl.toNat % 8 = 3 → q.wdata = r.wdata) := by decide

theorem witness_StepRunsThePresentedOperation :
    (presents page 0x031A#16 0).pending = [⟨false, 0x031A#16, 0, 0⟩] ∧
      decodeRequest ⟨false, 0x031A#16, 0, 0⟩ = .ok (.cfgr .m 3) := ⟨rfl, rfl⟩

theorem witness_StepRefusesWhatTheDecoderRefuses :
    (presents page 0x0011#16 0).pending = [⟨false, 0x0011#16, 0, 0⟩] ∧
      decodeRequest ⟨false, 0x0011#16, 0, 0⟩ = .error .reservedPriv := ⟨rfl, rfl⟩

theorem witness_IdleStepLeavesTheStore : page.pending = [] := rfl

theorem witness_StepGoesOnExactlyForAdmittedRequests :
    (presents page 0x041A#16 0).pending = [⟨false, 0x041A#16, 0, 0⟩] ∧
      ¬admitted page.params ⟨false, 0x041A#16, 0, 0⟩ ∧ admitted page.params ⟨false, 0x031A#16, 0, 0⟩ := by
  refine ⟨rfl, ?_, ?_⟩ <;> unfold admitted <;> decide

theorem witness_ResetReplacesTheRequestOfItsStep :
    ({ guarded with pending := [⟨true, 0x0019#16, 1#64, 1#64⟩] } : State).pending =
      [⟨true, 0x0019#16, 1#64, 1#64⟩] := rfl

theorem witness_StepTakesOneRequestAndKeepsParameters : ∃ t, step (presents page 0x031A#16 0) = .next t := ⟨_, rfl⟩

/-- Last group of both widths; every level; a locked byte (entry 0 of `guarded`), an unlocked one, and one outside. -/
theorem witness_CfgwReplacesUnlockedBytesOfItsGroup :
    State.reset.wf = true ∧ (3#8).toNat < State.reset.params.groups ∧ (State.resetFor rv64).wf = true ∧
      (1#8).toNat < (State.resetFor rv64).params.groups ∧ guarded.wf = true ∧ (0#8).toNat < guarded.params.groups ∧
      (3 : Nat) < guarded.params.k ∧ (guarded.cfgAt 0).getLsbD 7 = true ∧ (guarded.cfgAt 3).getLsbD 7 = false ∧
      0 * guarded.params.k + guarded.params.k ≤ 4 := by decide

theorem witness_CfgrReadsTheGroupLittleEndian : (3#8).toNat < guarded.params.groups ∧ 3 < guarded.params.k := by decide

/-- The last entry; both values of the lock predicate's second part. -/
theorem witness_AddrwStoresTheWordUnlessLocked :
    (lockedTor rv32Prev).wf = true ∧ (15#8).toNat < (lockedTor rv32Prev).params.n ∧
      (lockedTor rv32Prev).params.torPrevLock = true ∧ 4 + 1 < (lockedTor rv32Prev).params.n ∧
      ((lockedTor rv32Prev).cfgAt 5).getLsbD 7 = true ∧ ((lockedTor rv32Prev).cfgAt 5).extractLsb' 3 2 = 1#2 ∧
      ((lockedTor rv32Prev).cfgAt 4).getLsbD 7 = false := by decide

theorem witness_AddrrReadsTheStoredWord : guarded.wf = true ∧ (15#8).toNat < guarded.params.n := by decide

theorem witness_OutOfRangeIndicesAreRefused :
    page.params.groups ≤ (4#8).toNat ∧ page.params.n ≤ (16#8).toNat := by decide

theorem witness_UnlockedGroupWriteReadsBack :
    page.wf = true ∧ (∀ b < page.params.k, (page.cfgAt ((0#8).toNat * page.params.k + b)).getLsbD 7 = false) ∧
      ∃ t, exec (.cfgw .m 0 0x7F6B1A09#64) page = .next t := ⟨by decide, by decide, _, rfl⟩

theorem witness_UnlockedAddressWriteReadsBack :
    page.wf = true ∧ page.addrLocked (15#8).toNat = false ∧ ∃ t, exec (.addrw .m 15 0xDEADBEEF#64) page = .next t :=
  ⟨by decide, by decide, _, rfl⟩

theorem witness_RegisterWritesAreIdempotent :
    (∃ t, exec (.cfgw .m 3 0x80808080#64) page = .next t) ∧ ∃ t, exec (.addrw .m 15 1#64) page = .next t :=
  ⟨⟨_, rfl⟩, ⟨_, rfl⟩⟩

theorem witness_CfgsetbChangesOneByte :
    guarded.wf = true ∧ 3 < guarded.params.k ∧ (guarded.cfgAt ((0#8).toNat * guarded.params.k + 3)).getLsbD 7 = false ∧
      ∃ t, exec (cfgSetByteRead 0) guarded = .next t ∧ ∃ w, t.rdata = some w :=
  ⟨by decide, by decide, by decide, _, rfl, _, rfl⟩

theorem witness_OutputsHaveValuesOnlyWhereDefined :
    (∃ t, exec (.cfgr .u 3) page = .next t) ∧ (∃ t, exec (.addrr .u 15) page = .next t) ∧
      (∃ t, exec (.check .u .read 0) page = .next t) ∧ ∃ t, exec .nop page = .next t :=
  ⟨⟨_, rfl⟩, ⟨_, rfl⟩, ⟨_, rfl⟩, ⟨_, rfl⟩⟩

/-- The hypotheses of OffEntryMatchesNoAddress, TorEntryMatchesUpToItsOwnWord (above entry 0 here, entry 0 below),
Na4EntryMatchesFourBytes, and NAPOT. -/
theorem witness_MatcherModes :
    ((lockedTor rv32Prev).cfgAt 4).extractLsb' 3 2 = 0#2 ∧ ((lockedTor rv32Prev).cfgAt (4 + 1)).extractLsb' 3 2 = 1#2 ∧
      (guarded.cfgAt 0).extractLsb' 3 2 = 2#2 ∧ (guarded.cfgAt 1).extractLsb' 3 2 = 3#2 := by decide

/-- k = 9 (spec R86's example) and k = XLEN, the all-ones word. -/
theorem witness_NapotEntryMatchesItsPowerOfTwo :
    ((page.cfgAt 0).extractLsb' 3 2 = 3#2 ∧ 9 ≤ page.params.xlen.bits ∧ (∀ j < 9, (page.addrAt 0).getLsbD j = true) ∧
      (page.addrAt 0).getLsbD 9 = false) ∧
      ∀ j < 32, ((store Params.standard [0x19#8] [0xFFFFFFFF#64]).addrAt 0).getLsbD j = true := by decide

/-- spec V4.11: k = XLEN - 3 at the last address. -/
theorem witness_NapotWordOfOnesMatchesEveryAddress :
    let s := store Params.standard [0x19#8] [0x1FFFFFFF#64]
    (s.cfgAt 0).extractLsb' 3 2 = 3#2 ∧ s.params.xlen.bits - 3 ≤ 29 ∧ 29 ≤ s.params.xlen.bits ∧
      (s.addrAt 0).toNat = 2 ^ 29 - 1 ∧ 0xFFFFFFFF < 2 ^ s.params.xlen.bits := by decide

theorem witness_NapotEvenWordMatchesEightBytes :
    let s := store Params.standard [0x19#8] [0x400#64]
    (s.cfgAt 0).extractLsb' 3 2 = 3#2 ∧ (s.addrAt 0).toNat % 2 = 0 := by decide

/-- spec E4: the same two words at k = 0 and k = 5. -/
theorem witness_TorRegionIsIndexIndependent :
    let s := store Params.standard [0#8, 0x09#8] [0x10000000#64, 0x20000000#64]
    let t := lockedTor rv32Prev
    (s.cfgAt 1).extractLsb' 3 2 = 1#2 ∧ (t.cfgAt 5).extractLsb' 3 2 = 1#2 ∧ s.addrAt 1 = t.addrAt 5 ∧
      s.addrAt (1 - 1) = t.addrAt (5 - 1) := by decide

/-- Two stores that differ in R, W, X, L and in the preceding config byte. -/
theorem witness_MatcherReadsOnlyModeAndWords :
    let s := store Params.standard [0x18#8, 0x09#8] [0x100001FF#64, 0x20000000#64]
    let t := store rv32Prev [0x00#8, 0xEE#8] [0x100001FF#64, 0x20000000#64]
    s.params.xlen = t.params.xlen ∧ (s.cfgAt 1).extractLsb' 3 2 = (t.cfgAt 1).extractLsb' 3 2 ∧
      s.addrAt 1 = t.addrAt 1 ∧ s.addrAt (1 - 1) = t.addrAt (1 - 1) := by decide

/-- spec V4.4, V4.14, V4.18 at the last address. -/
theorem witness_RegionsDoNotWrap :
    0xFFFFFFFF < 2 ^ Params.standard.xlen.bits ∧
      ((store Params.standard [0x11#8] [0x40000000#64]).addrAt 0).toNat = 2 ^ (32 - 2) ∧
      napotBase .rv32 0xBFFFFFFF#64 = 2 ^ 33 ∧
      ((store Params.standard [0x09#8] [0x40000000#64]).addrAt 0).toNat = 2 ^ (32 - 2) := by decide

theorem witness_RegionBoundsAreAligned :
    guarded.wf = true ∧ guarded.region 1 = .span 0x40000000 0x40001000 ∧ (guarded.cfgAt 1).extractLsb' 3 2 = 3#2 := by
  decide

/-- The smallest region, and the largest, which is the whole space. -/
theorem witness_NapotWordEncodesItsRegion :
    0x1000 % 2 ^ (0 + 3) = 0 ∧ (store Params.standard [0x19#8] [0x400#64]).addrAt 0 = napotWord 0x1000 (2 ^ (0 + 3)) ∧
      29 + 3 ≤ Params.standard.xlen.bits ∧ 0 + 2 ^ (29 + 3) ≤ 2 ^ Params.standard.xlen.bits ∧
      (store Params.standard [0x19#8] [0x1FFFFFFF#64]).addrAt 0 = napotWord 0 (2 ^ (29 + 3)) := by decide

/-- The top of the space itself is a multiple of 4 within the bound. -/
theorem witness_TorAndNa4WordsEncodeTheirBounds :
    2 ^ 32 % 4 = 0 ∧ 2 ^ 32 ≤ 2 ^ Params.standard.xlen.bits ∧
      (store Params.standard [0x09#8] [0x40000000#64]).addrAt 0 = torWord (2 ^ 32) ∧
      (store Params.standard [0x11#8] [0x10000000#64]).addrAt 0 = na4Word 0x40000000 := by decide

/-- Entry 0 decides at its last byte, entry 1 just above it, none above entry 1. -/
theorem witness_CheckAnswersTheVerdict :
    guarded.firstMatch (0x40000003 % 2 ^ guarded.params.xlen.bits) 0 ∧
      guarded.firstMatch (0x40000004 % 2 ^ guarded.params.xlen.bits) 1 ∧
      guarded.noMatch (0x40001000 % 2 ^ guarded.params.xlen.bits) := by
  unfold State.firstMatch State.noMatch
  decide

/-- A store that differs from `guarded` above the deciding entry 0. -/
theorem witness_LowestMatchingEntryDecides :
    let t := store Params.standard [0x90#8, 0x1F#8] [0x10000000#64, 0#64]
    guarded.params = t.params ∧ (∀ j ≤ 0, guarded.cfgAt j = t.cfgAt j ∧ guarded.addrAt j = t.addrAt j) ∧
      guarded.firstMatch (0x40000000 % 2 ^ guarded.params.xlen.bits) 0 := by
  unfold State.firstMatch
  decide

theorem witness_MachineModeBypassesUnlockedEntries :
    guarded.firstMatch (0x40000FFF % 2 ^ guarded.params.xlen.bits) 1 ∧ (guarded.cfgAt 1).getLsbD 7 = false := by
  unfold State.firstMatch
  decide

theorem witness_SelectedPermissionBitDecides :
    guarded.firstMatch (0x40000000 % 2 ^ guarded.params.xlen.bits) 0 ∧ (guarded.cfgAt 0).getLsbD 7 = true ∧
      guarded.firstMatch (0x40000004 % 2 ^ guarded.params.xlen.bits) 1 ∧ (Priv.u ≠ Priv.m) := by
  unfold State.firstMatch
  decide

theorem witness_DefaultPolicyWithoutAMatch : State.reset.noMatch (0xFFFFFFFF % 2 ^ State.reset.params.xlen.bits) := by
  unfold State.noMatch
  decide

/-- Two states of one store that differ in outputs and later requests. -/
theorem witness_VerdictIsAFunctionOfTheStore :
    let t := presents (guarded.judge 1#1) 0x0019#16 0
    guarded.params = t.params ∧ guarded.cfg = t.cfg ∧ guarded.pmpaddr = t.pmpaddr ∧ guarded ≠ t := by decide

theorem witness_ReservedConfigBitsChangeNoVerdict :
    let s := store Params.standard [0x99#8] [0xFFFFFFFF#64]
    let t := store Params.standard [0xF9#8] [0xFFFFFFFF#64]
    s.params = t.params ∧ s.pmpaddr = t.pmpaddr ∧ ∀ i, s.cfgAt i &&& 0x9F#8 = t.cfgAt i &&& 0x9F#8 := by
  refine ⟨rfl, rfl, fun i => ?_⟩
  cases i <;> rfl

theorem witness_ResetClearsTheWholeStore :
    ∃ u, exec (.cfgw .m 0 0#64) guarded = .next u ∧ Instr.cfgw .m 0 0#64 ≠ .reset ∧
      (guarded.cfgAt 0).getLsbD 7 = true := ⟨_, rfl, by decide, by decide⟩

theorem witness_ResetValuesAreZero : 15 < Params.standard.n ∧ 3 < Params.standard.groups ∧ 1 < rv64.groups := by decide

theorem witness_AfterResetOnlyMachineModePasses :
    ∃ t, exec .reset guarded = .next t ∧ (3#8).toNat < t.params.groups ∧ (15#8).toNat < t.params.n :=
  ⟨_, rfl, by decide, by decide⟩

theorem witness_ResetHasTheStoreForm :
    Params.wf Params.standard = true ∧ Params.wf rv64 = true ∧ Params.wf ⟨.rv32, 4, true⟩ = true ∧
      Params.wf ⟨.rv64, 256, false⟩ = true := by decide

theorem witness_StepKeepsTheStoreForm :
    (presents guarded 0x0F1B#16 7#64).wf = true ∧ ∃ t, step (presents guarded 0x0F1B#16 7#64) = .next t :=
  ⟨by decide, _, rfl⟩

/-- A locked entry and a request that tries to clear it (spec V1.8). -/
theorem witness_LockedEntriesAreImmutable :
    (∃ t, step (presents guarded 0x0019#16 0) = .next t) ∧
      (∀ r, (presents guarded 0x0019#16 0).pending.head? = some r → r.rst = false) ∧
      ((presents guarded 0x0019#16 0).cfgAt 0).getLsbD 7 = true := by
  refine ⟨⟨_, rfl⟩, fun r h => ?_, by decide⟩
  obtain rfl : (⟨false, 0x0019#16, 0, 0⟩ : Request) = r := by simpa [presents] using h
  rfl

/-- A run of one step that tries to clear a lock. -/
theorem witness_LockedEntriesPersistAlongRuns :
    let s := presents guarded 0x0019#16 0
    (∃ t, State.runSteps 1 s = some t) ∧ (∀ r ∈ s.pending, r.rst = false) ∧ (s.cfgAt 0).getLsbD 7 = true :=
  ⟨⟨_, rfl⟩, by decide, by decide⟩

/-- A run of one step with a locked entry 0 that denies R at the address it matches. -/
theorem witness_LockedFirstEntryDeniesUntilReset :
    let s := presents guarded 0x0019#16 0
    (∃ t, State.runSteps 1 s = some t) ∧ (∀ r ∈ s.pending, r.rst = false) ∧ 0 < s.params.n ∧
      (s.cfgAt 0).getLsbD 7 = true ∧ (s.cfgAt 0).getLsbD (permissionIndex .read) = false ∧
      s.matchesAt 0 (0x40000003 % 2 ^ s.params.xlen.bits) = true :=
  ⟨⟨_, rfl⟩, by decide, by decide, by decide, by decide, by decide⟩

/-- spec V2.7: the write to pmpaddr[4] below the locked TOR entry 5. -/
theorem witness_TorPrevLockKeepsThePrecedingWord :
    let s := presents (lockedTor rv32Prev) 0x041B#16 0x1234#64
    (∃ t, step s = .next t) ∧ s.params.torPrevLock = true ∧ 4 + 1 < s.params.n ∧ (s.cfgAt 5).getLsbD 7 = true ∧
      (s.cfgAt 5).extractLsb' 3 2 = 1#2 ∧ s.pending = [⟨false, 0x041B#16, 0x1234#64, 0x1234#64⟩] :=
  ⟨⟨_, rfl⟩, by decide, by decide, by decide, by decide, rfl⟩

theorem witness_WithoutTorPrevLockTheBottomMoves :
    let s := lockedTor Params.standard
    s.wf = true ∧ s.params.torPrevLock = false ∧ (4#8).toNat + 1 < s.params.n ∧ (s.cfgAt 4).getLsbD 7 = false ∧
      (s.cfgAt 5).getLsbD 7 = true ∧ s.params.fits 0xFFFFFFFF#64 = true := by decide

/-- spec V1.6: a supervisor's CFGW. -/
theorem witness_OnlyMachineModeWritesTheStore :
    (presents page 0x0009#16 0xFFFFFFFF#64).pending = [⟨false, 0x0009#16, 0xFFFFFFFF#64, 0xFFFFFFFF#64⟩] ∧
      (0x0009#16).toNat / 8 % 4 ≠ 3 ∧ ∃ t, step (presents page 0x0009#16 0xFFFFFFFF#64) = .next t :=
  ⟨rfl, by decide, _, rfl⟩

end Sys2Proof.Tests
end

/-! PROOFS. The form of the store: the reset state has it and every operation keeps it; the reset readings are zero. -/

namespace Sys2Proof.Machine

/-! ## Every step keeps the form -/

/-- What an operation leaves in the store and on `rdata` has the form of the store. The words it can bring in are XLEN-bit
values: a port's, a configuration register's or a stored one. -/
theorem exec_keeps_wf (i : Instr) (s t : State) (hs : s.wf = true) (h : exec i s = .next t) : t.wf = true := by
  cases i with
  | nop =>
    obtain rfl := (execNop_next_iff s t).1 h
    exact s.quiet_wf hs
  | cfgw p g w =>
    obtain ⟨-, rfl⟩ := (execCfgw_next_iff p g w s t).1 h
    split
    · exact State.quiet_wf _ (s.writeGroup_wf g.toNat w hs)
    · exact s.quiet_wf hs
  | cfgr p g =>
    obtain ⟨-, rfl⟩ := (execCfgr_next_iff p g s t).1 h
    exact s.answer_wf _ hs (s.readGroup_fits g.toNat)
  | addrw p e w =>
    obtain ⟨-, rfl⟩ := (execAddrw_next_iff p e w s t).1 h
    split
    · exact State.quiet_wf _ (s.writeAddr_wf e.toNat w hs)
    · exact s.quiet_wf hs
  | addrr p e =>
    obtain ⟨-, rfl⟩ := (execAddrr_next_iff p e s t).1 h
    exact s.answer_wf _ hs (s.wf_addrAt_fits hs e.toNat)
  | check p acc a =>
    obtain rfl := (execCheck_next_iff p acc a s t).1 h
    exact s.judge_wf _ hs
  | reset =>
    obtain rfl := (execReset_next_iff s t).1 h
    exact State.quiet_wf _ (s.zeroed_wf hs)

/-- Settles O47: a step runs one operation on the state whose request has left the list, and each operation keeps the
form. -/
theorem stepKeepsTheStoreForm : Obligations.StepKeepsTheStoreForm := by
  intro s t hs h
  obtain ⟨i, -, hi⟩ := step_next_cases s t h
  exact exec_keeps_wf i s.consumed t (s.consumed_wf.trans hs) hi

/-! ## The reset state -/

theorem State.resetFor_wf (p : Params) (hp : p.wf = true) : (State.resetFor p).wf = true := by
  rw [State.wf_iff]
  refine ⟨hp, by simp, by simp, fun w hw => ?_, by simp⟩
  obtain rfl := List.eq_of_mem_replicate hw
  simp

/-- Settles O46: `State.reset` is the reset state of the standard parameters, which are legal. -/
theorem resetHasTheStoreForm : Obligations.ResetHasTheStoreForm :=
  ⟨State.resetFor_wf Params.standard (by decide), State.resetFor_wf⟩

@[simp] theorem State.resetFor_cfgAt (p : Params) (i : Nat) : (State.resetFor p).cfgAt i = 0 :=
  (State.resetFor p).zeroed_cfgAt i

@[simp] theorem packBytes_replicate_zero (n : Nat) : packBytes (List.replicate n 0#8) = 0#64 := by
  induction n with
  | zero => rfl
  | succ n ih => simp [List.replicate_succ, packBytes, ih]

/-- CFGREG(g) packs config bytes only, so it is zero where they all are (30_encoding.md R64). -/
theorem State.readGroup_eq_zero (s : State) (g : Nat) (h : ∀ i, s.cfgAt i = 0#8) : s.readGroup g = 0#64 := by
  simp [State.readGroup, h]

/-- Settles O44: the two arrays are replicated zeros, and every configuration register packs zero bytes. -/
theorem resetValuesAreZero : Obligations.ResetValuesAreZero := by
  intro p
  refine ⟨fun i hi => ?_, fun g _ => State.readGroup_eq_zero _ g (State.resetFor_cfgAt p)⟩
  simp [hi]

end Sys2Proof.Machine

/-! PROOFS. What a lock bit protects: no operation but RESET changes a locked entry's config byte or address word. -/

namespace Sys2Proof.Machine

/-! ## Locked entries under the two writes -/

theorem State.cfgAt_congr {s t : State} (h : t.cfg = s.cfg) (i : Nat) : t.cfgAt i = s.cfgAt i :=
  congrArg (·.getD i 0) h

theorem State.addrAt_congr {s t : State} (h : t.pmpaddr = s.pmpaddr) (i : Nat) : t.addrAt i = s.addrAt i :=
  congrArg (·.getD i 0) h

/-- A group write skips locked bytes (40_csr_codec.md R74). -/
theorem State.writeGroup_cfgAt_of_locked (s : State) (g : Nat) (w : Word) (i : Nat) (hl : s.isLocked i = true) :
    (s.writeGroup g w).cfgAt i = s.cfgAt i := by
  rcases Nat.lt_or_ge i s.cfg.length with hi | hi
  · simp [s.writeGroup_cfgAt g w i hi, hl]
  · exact s.writeGroup_cfgAt_of_ge g w i hi

/-- An address write changes its own word only (40_csr_codec.md R78). -/
theorem State.writeAddr_addrAt_of_ne (s : State) (j : Nat) (w : Word) (i : Nat) (h : i ≠ j) :
    (s.writeAddr j w).addrAt i = s.addrAt i := by
  simp [State.addrAt, List.getD_eq_getElem?_getD, List.getElem?_set_ne h.symm]

/-- A locked entry's own address register is locked (40_csr_codec.md R77). -/
theorem State.addrLocked_of_isLocked (s : State) (i : Nat) (hl : s.isLocked i = true) : s.addrLocked i = true :=
  (s.addrLocked_iff i).2 (.inl hl)

/-! ## Locked entries under every operation but RESET -/

/-- Of the store changes an operation can make, a group write skips a locked byte, and an address write that goes through
is of an unlocked register, so of another entry. -/
theorem exec_keeps_locked (o : Instr) (s t : State) (i : Nat) (ho : o ≠ .reset) (h : exec o s = .next t)
    (hl : s.isLocked i = true) : t.cfgAt i = s.cfgAt i ∧ t.addrAt i = s.addrAt i := by
  obtain ⟨-, -, hstore⟩ := exec_next_store o s t h
  rcases hstore with ⟨hc, ha⟩ | ⟨g, w, -, -, hc, ha⟩ | ⟨e, w, -, -, he, hc, ha⟩ | ⟨hreset, -, -⟩
  · exact ⟨State.cfgAt_congr hc i, State.addrAt_congr ha i⟩
  · exact ⟨(State.cfgAt_congr hc i).trans (s.writeGroup_cfgAt_of_locked _ w i hl), State.addrAt_congr ha i⟩
  · have hne : i ≠ e.toNat := by
      rintro rfl
      simp [s.addrLocked_of_isLocked _ hl] at he
    exact ⟨State.cfgAt_congr hc i, (State.addrAt_congr ha i).trans (s.writeAddr_addrAt_of_ne _ w i hne)⟩
  · exact absurd hreset ho

/-! ## The step -/

/-- Where the caller's oldest request, if there is one, is no RESET, the ports carry none: the idle ports hold NOP. -/
theorem State.presented_rst_eq_false (s : State) (h : ∀ r, s.pending.head? = some r → r.rst = false) :
    s.presented.rst = false := by
  unfold State.presented
  cases hp : s.pending with
  | nil => rfl
  | cons r rest => exact h r (by simp [hp])

/-- A step with no RESET on the ports runs an operation other than RESET. -/
theorem step_next_cases_of_rst_eq_false (s t : State) (h : step s = .next t) (hr : s.presented.rst = false) :
    ∃ o, o ≠ .reset ∧ decodeRequest s.presented = .ok o ∧ exec o s.consumed = .next t := by
  obtain ⟨o, hd, ho⟩ := step_next_cases s t h
  refine ⟨o, ?_, hd, ho⟩
  rintro rfl
  simp [(decodeRequest_eq_reset s.presented).1 hd] at hr

/-- Settles O48: the step runs an operation other than RESET, and no such operation changes a locked entry. -/
theorem lockedEntriesAreImmutable : Obligations.LockedEntriesAreImmutable := by
  intro s t i h hr hl
  obtain ⟨o, ho, -, hexec⟩ := step_next_cases_of_rst_eq_false s t h (s.presented_rst_eq_false hr)
  exact exec_keeps_locked o s.consumed t i ho hexec hl

end Sys2Proof.Machine

/-! PROOFS. The CSR codec: the bytes of a group and the address words, under a read and under a write. -/

namespace Sys2Proof

/-! ## The operation a ctl word of the codec names -/

section

variable (idx : BitVec 8) (acc : BitVec 2) (p : Priv) (wdata addr : Word)

@[simp] theorem decodeRequest_cfgw :
    decodeRequest ⟨false, ctlWord idx acc (privBits p) 0b001#3, wdata, addr⟩ = .ok (.cfgw p idx wdata) := by
  simp [decodeRequest, decodeCtl]

@[simp] theorem decodeRequest_cfgr :
    decodeRequest ⟨false, ctlWord idx acc (privBits p) 0b010#3, wdata, addr⟩ = .ok (.cfgr p idx) := by
  simp [decodeRequest, decodeCtl]

@[simp] theorem decodeRequest_addrw :
    decodeRequest ⟨false, ctlWord idx acc (privBits p) 0b011#3, wdata, addr⟩ = .ok (.addrw p idx wdata) := by
  simp [decodeRequest, decodeCtl]

@[simp] theorem decodeRequest_addrr :
    decodeRequest ⟨false, ctlWord idx acc (privBits p) 0b100#3, wdata, addr⟩ = .ok (.addrr p idx) := by
  simp [decodeRequest, decodeCtl]

end

/-! ## Entries of a group -/

theorem Params.k_le_eight (p : Params) : p.k ≤ 8 := by
  unfold Params.k
  cases p.xlen <;> decide

theorem Params.group_entry_div (p : Params) (g b : Nat) (hb : b < p.k) : (g * p.k + b) / p.k = g := by
  rw [Nat.mul_comm, Nat.mul_add_div p.k_pos, Nat.div_eq_of_lt hb, Nat.add_zero]

theorem Params.group_entry_mod (p : Params) (g b : Nat) (hb : b < p.k) : (g * p.k + b) % p.k = b := by
  rw [Nat.mul_add_mod_self_right, Nat.mod_eq_of_lt hb]

/-- Entry i is byte i % K of group i / K (10_state.md R19). -/
theorem Params.entry_eq (p : Params) (i : Nat) : i / p.k * p.k + i % p.k = i :=
  Nat.div_add_mod' i p.k

/-- An entry before or after the K entries of group g is in another group. -/
theorem Params.entry_div_ne (p : Params) (g i : Nat) (h : i < g * p.k ∨ g * p.k + p.k ≤ i) : i / p.k ≠ g := by
  rintro rfl
  have hlt := Nat.mod_lt i p.k_pos
  have heq := p.entry_eq i
  omega

/-! ## XLEN-bit words and their bytes -/

theorem Params.getLsbD_port (p : Params) (w : Word) (j : Nat) :
    (p.port w).getLsbD j = (decide (j < p.xlen.bits) && w.getLsbD j) := by
  rw [← BitVec.testBit_toNat, p.port_toNat, Nat.testBit_mod_two_pow, BitVec.testBit_toNat]

namespace Machine

theorem getLsbD_byteOf (w : Word) (b j : Nat) : (byteOf w b).getLsbD j = (decide (j < 8) && w.getLsbD (8 * b + j)) := by
  simp [byteOf]

/-- The bytes of a configuration register lie on the XLEN-bit port. -/
theorem byteOf_port (p : Params) (w : Word) (b : Nat) (hb : b < p.k) : byteOf (p.port w) b = byteOf w b := by
  have hk := p.k_mul_eight
  apply BitVec.eq_of_getLsbD_eq
  intro j hj
  have hlt : 8 * b + j < p.xlen.bits := by omega
  simp [getLsbD_byteOf, p.getLsbD_port, hlt]

/-- What a port carries is determined by its K bytes (30_encoding.md R63). -/
theorem port_eq_of_byteOf_eq (p : Params) (v w : Word) (h : ∀ b < p.k, byteOf v b = byteOf w b) :
    p.port v = p.port w := by
  have hk := p.k_mul_eight
  apply BitVec.eq_of_getLsbD_eq
  intro j _
  rw [p.getLsbD_port, p.getLsbD_port]
  by_cases hj : j < p.xlen.bits
  · have hbit : j % 8 < 8 := Nat.mod_lt j (by decide)
    have hbyte := congrArg (·.getLsbD (j % 8)) (h (j / 8) (by omega))
    simp only [getLsbD_byteOf, hbit, Nat.div_add_mod] at hbyte
    simpa [hj] using hbyte
  · simp [hj]

/-! ## Group writes -/

theorem State.isLocked_eq (s : State) (i : Nat) : s.isLocked i = (s.cfgAt i).getLsbD 7 := rfl

/-- Byte b of an existing group after the group is written: the old byte where it is locked, else byte b of the word
(40_csr_codec.md R74). -/
theorem State.writeGroup_cfgAt_group (s : State) (g b : Nat) (w : Word) (hs : s.wf = true)
    (hg : g < s.params.groups) (hb : b < s.params.k) :
    (s.writeGroup g w).cfgAt (g * s.params.k + b) =
      if (s.cfgAt (g * s.params.k + b)).getLsbD 7 = true then s.cfgAt (g * s.params.k + b) else byteOf w b := by
  obtain ⟨-, hlen, -⟩ := s.wf_iff.1 hs
  have hi : g * s.params.k + b < s.cfg.length := hlen ▸ s.params.group_entry_lt g b hg hb
  rw [s.writeGroup_cfgAt g w _ hi, s.params.group_entry_div g b hb, s.params.group_entry_mod g b hb, s.isLocked_eq]
  cases (s.cfgAt (g * s.params.k + b)).getLsbD 7 <;> simp

theorem State.writeGroup_cfgAt_group_of_unlocked (s : State) (g b : Nat) (w : Word) (hs : s.wf = true)
    (hg : g < s.params.groups) (hb : b < s.params.k) (hu : (s.cfgAt (g * s.params.k + b)).getLsbD 7 = false) :
    (s.writeGroup g w).cfgAt (g * s.params.k + b) = byteOf w b := by
  rw [s.writeGroup_cfgAt_group g b w hs hg hb, hu, if_neg Bool.false_ne_true]

/-- An entry of another group keeps its byte (40_csr_codec.md R74). -/
theorem State.writeGroup_cfgAt_of_div_ne (s : State) (g : Nat) (w : Word) (i : Nat) (h : i / s.params.k ≠ g) :
    (s.writeGroup g w).cfgAt i = s.cfgAt i := by
  rcases Nat.lt_or_ge i s.cfg.length with hi | hi
  · simp [s.writeGroup_cfgAt g w i hi, h]
  · exact s.writeGroup_cfgAt_of_ge g w i hi

/-- A byte the first write replaced is replaced by itself; one it made locked, or found locked, stays. -/
theorem State.writeGroup_writeGroup (s : State) (g : Nat) (w : Word) :
    (s.writeGroup g w).writeGroup g w = s.writeGroup g w := by
  have hcfg : ((s.writeGroup g w).writeGroup g w).cfg = (s.writeGroup g w).cfg := by
    simp only [State.writeGroup_cfg, State.writeGroup_params, List.mapIdx_mapIdx]
    refine congrArg (s.cfg.mapIdx ·) (funext fun i => funext fun c => ?_)
    simp only [Function.comp_apply]
    split <;> simp_all
  simpa [State.writeGroup] using hcfg

/-- Settles O13: the entries of the group carry the word's bytes where unlocked, the others are in another group. -/
theorem cfgwReplacesUnlockedBytesOfItsGroup : Obligations.CfgwReplacesUnlockedBytesOfItsGroup := by
  intro s p g acc wdata addr hs hg
  refine ⟨decodeRequest_cfgw g acc p wdata addr, _, (execCfgw_next_iff p g wdata s _).2 ⟨hg, rfl⟩, ?_⟩
  by_cases hp : p = .m
  · rw [if_pos hp]
    refine ⟨rfl, by simp, fun h => absurd hp h, fun _ b hb => ?_, fun _ i hi => ?_⟩
    · exact s.writeGroup_cfgAt_group g.toNat b wdata hs hg hb
    · exact s.writeGroup_cfgAt_of_div_ne g.toNat wdata i (s.params.entry_div_ne g.toNat i hi)
  · rw [if_neg hp]
    exact ⟨rfl, rfl, fun _ => rfl, fun h => absurd h hp, fun h => absurd h hp⟩

/-! ## Group reads -/

/-- Settles O14: the word is the one `State.readGroup` packs, whatever the level. -/
theorem cfgrReadsTheGroupLittleEndian : Obligations.CfgrReadsTheGroupLittleEndian := by
  intro s g hg
  refine ⟨s.readGroup g.toNat, fun b hb => s.byteOf_readGroup g.toNat b hb,
    (s.params.fits_iff _).1 (s.readGroup_fits g.toNat), fun p acc wdata addr => ⟨?_, ?_⟩⟩
  · exact decodeRequest_cfgr g acc p wdata addr
  · exact (execCfgr_next_iff p g s _).2 ⟨hg, rfl⟩

/-- A configuration register reads an XLEN-bit word when its entries hold the word's bytes (40_csr_codec.md R76). -/
theorem State.readGroup_eq_port (s : State) (g : Nat) (w : Word)
    (h : ∀ b < s.params.k, s.cfgAt (g * s.params.k + b) = byteOf w b) : s.readGroup g = s.params.port w := by
  rw [← s.params.port_of_fits _ (s.readGroup_fits g)]
  exact port_eq_of_byteOf_eq _ _ _ fun b hb => (s.byteOf_readGroup g b hb).trans (h b hb)

/-- Settles O18: with no byte locked, every entry of the group holds the word's byte, so the register reads the word. -/
theorem unlockedGroupWriteReadsBack : Obligations.UnlockedGroupWriteReadsBack := by
  intro s t p g wdata hs hunlocked h
  obtain ⟨hg, rfl⟩ := (execCfgw_next_iff .m g wdata s t).1 h
  refine ⟨_, _, (execCfgr_next_iff p g _ _).2 ⟨hg, rfl⟩, rfl, ?_⟩
  rw [State.readGroup_eq_port _ g.toNat wdata, Params.port_toNat]
  · rfl
  · exact fun b hb => s.writeGroup_cfgAt_group_of_unlocked g.toNat b wdata hs hg hb (hunlocked b hb)

/-! ## Address registers -/

/-- A = 1 is TOR (10_state.md R28). -/
theorem modeOf_eq_tor_iff (c : Byte) : modeOf c = .tor ↔ c.extractLsb' 3 2 = 1#2 := by
  obtain ⟨-, htor, -⟩ := modeOf_eq c
  refine ⟨fun h => ?_, htor⟩
  rw [modeOf_bits c, h]

/-- When an address register can be written (40_csr_codec.md R77, R78), in the bits of the config bytes. -/
theorem State.addrLocked_eq_false_iff (s : State) (i : Nat) :
    s.addrLocked i = false ↔
      (s.cfgAt i).getLsbD 7 = false ∧
        ¬(s.params.torPrevLock = true ∧ i + 1 < s.params.n ∧
          (s.cfgAt (i + 1)).getLsbD 7 = true ∧ (s.cfgAt (i + 1)).extractLsb' 3 2 = 1#2) := by
  rw [← Bool.not_eq_true, s.addrLocked_iff, not_or, Bool.not_eq_true, modeOf_eq_tor_iff]
  rfl

/-- A write stores what the XLEN-bit port carries (40_csr_codec.md R78). -/
theorem State.writeAddr_addrAt_self_toNat (s : State) (i : Nat) (w : Word) (hs : s.wf = true)
    (hi : i < s.params.n) : ((s.writeAddr i w).addrAt i).toNat = w.toNat % 2 ^ s.params.xlen.bits := by
  obtain ⟨-, -, hlen, -⟩ := s.wf_iff.1 hs
  rw [s.writeAddr_addrAt i w i (hlen ▸ hi), if_pos rfl, s.params.port_toNat]

/-- Settles O15: the write goes through exactly where the level is M and the register is not locked. -/
theorem addrwStoresTheWordUnlessLocked : Obligations.AddrwStoresTheWordUnlessLocked := by
  intro s p i acc wdata addr hs hi
  refine ⟨decodeRequest_addrw i acc p wdata addr, _, (execAddrw_next_iff p i wdata s _).2 ⟨hi, rfl⟩, ?_⟩
  simp only [← s.addrLocked_eq_false_iff]
  by_cases hw : p = .m ∧ s.addrLocked i.toNat = false
  · rw [if_pos hw, if_pos hw]
    exact ⟨rfl, by simp, fun j hj => s.writeAddr_addrAt_of_ne i.toNat wdata j hj,
      s.writeAddr_addrAt_self_toNat i.toNat wdata hs hi⟩
  · rw [if_neg hw, if_neg hw]
    exact ⟨rfl, rfl, fun j _ => rfl, rfl⟩

/-- Settles O16: an entry below N has a word in the store, and ADDRR answers it whatever the level. -/
theorem addrrReadsTheStoredWord : Obligations.AddrrReadsTheStoredWord := by
  intro s p i acc wdata addr hs hi
  obtain ⟨-, -, hlen, -⟩ := s.wf_iff.1 hs
  exact ⟨decodeRequest_addrr i acc p wdata addr, s.addrAt i.toNat, s.addrAt_eq i.toNat (hlen ▸ hi),
    (execAddrr_next_iff p i s _).2 ⟨hi, rfl⟩⟩

/-- Settles O19: the write goes through, and the word read is the one the port carried. -/
theorem unlockedAddressWriteReadsBack : Obligations.UnlockedAddressWriteReadsBack := by
  intro s t p i wdata hs hunlocked h
  obtain ⟨hi, rfl⟩ := (execAddrw_next_iff .m i wdata s t).1 h
  rw [if_pos ⟨rfl, hunlocked⟩]
  exact ⟨_, _, (execAddrr_next_iff p i _ _).2 ⟨hi, rfl⟩, rfl, s.writeAddr_addrAt_self_toNat i.toNat wdata hs hi⟩

/-! ## Two requests in a row -/

theorem State.writeAddr_writeAddr (s : State) (i : Nat) (w : Word) :
    (s.writeAddr i w).writeAddr i w = s.writeAddr i w := by
  simp [State.writeAddr]

/-- The second CFGW finds the group as the first left it: it writes the same bytes again, or below machine mode none. -/
theorem execCfgw_execCfgw (p : Priv) (g : BitVec 8) (w : Word) (s t : State) (h : execCfgw p g w s = .next t) :
    execCfgw p g w t = .next t := by
  obtain ⟨hg, rfl⟩ := (execCfgw_next_iff p g w s t).1 h
  rw [execCfgw_next_iff]
  split
  · exact ⟨hg, (congrArg State.quiet (s.writeGroup_writeGroup g.toNat w)).symm⟩
  · exact ⟨hg, rfl⟩

/-- An address write changes no lock, so the second ADDRW goes through exactly where the first did. -/
theorem execAddrw_execAddrw (p : Priv) (i : BitVec 8) (w : Word) (s t : State) (h : execAddrw p i w s = .next t) :
    execAddrw p i w t = .next t := by
  obtain ⟨hi, rfl⟩ := (execAddrw_next_iff p i w s t).1 h
  rw [execAddrw_next_iff]
  split
  case isTrue hw =>
    exact ⟨hi, (congrArg State.quiet (s.writeAddr_writeAddr i.toNat w)).symm.trans (if_pos hw).symm⟩
  case isFalse hw => exact ⟨hi, (if_neg hw).symm⟩

/-- Settles O20: neither write finds anything to change the second time. -/
theorem registerWritesAreIdempotent : Obligations.RegisterWritesAreIdempotent :=
  fun s t p e w => ⟨execCfgw_execCfgw p e w s t, execAddrw_execAddrw p e w s t⟩

/-- Writing back what a group reads, with byte b replaced, leaves every other byte (30_encoding.md R72). -/
theorem State.writeGroup_setByte_cfgAt_of_ne (s : State) (g b : Nat) (v : Byte) (i : Nat)
    (hne : i ≠ g * s.params.k + b) :
    (s.writeGroup g (setByte (s.readGroup g) b v)).cfgAt i = s.cfgAt i := by
  rcases Nat.lt_or_ge i s.cfg.length with hi | hi
  · rw [s.writeGroup_cfgAt g _ i hi]
    split
    · rename_i hc
      obtain ⟨rfl, -⟩ := hc
      have hlt := Nat.mod_lt i s.params.k_pos
      have hb : i % s.params.k ≠ b := fun h => hne (h ▸ (s.params.entry_eq i).symm)
      rw [byteOf_setByte _ _ _ _ (lt_of_lt_of_le hlt s.params.k_le_eight), if_neg hb, s.byteOf_readGroup _ _ hlt,
        s.params.entry_eq i]
    · rfl
  · exact s.writeGroup_cfgAt_of_ge g _ i hi

/-- Settles O21: the read leaves the store, and the write puts back the bytes read but for the one replaced. -/
theorem cfgsetbChangesOneByte : Obligations.CfgsetbChangesOneByte := by
  intro s t g b v w hs hb hunlocked hread hw
  obtain ⟨hg, rfl⟩ := (execCfgr_next_iff .m g s t).1 hread
  obtain rfl : s.readGroup g.toNat = w := by simpa using hw
  refine ⟨_, (execCfgw_next_iff .m g _ _ _).2 ⟨hg, rfl⟩, ?_, fun i hi => ?_, rfl⟩
  · refine (s.writeGroup_cfgAt_group_of_unlocked g.toNat b _ hs hg hb hunlocked).trans ?_
    rw [byteOf_setByte _ _ _ _ (lt_of_lt_of_le hb s.params.k_le_eight), if_pos rfl]
  · exact s.writeGroup_setByte_cfgAt_of_ne g.toNat b v i hi

end Machine
end Sys2Proof

/-! PROOFS. The requesting level: machine mode is told from the others, the others are not told apart, and they write
nothing. -/

namespace Sys2Proof

/-! ## The level of an operation -/

/-- The level an operation is requested at; NOP and RESET have none (30_encoding.md R62). -/
def Instr.level : Instr → Option Priv
  | .cfgw p _ _ | .cfgr p _ | .addrw p _ _ | .addrr p _ | .check p _ _ => some p
  | .nop | .reset => none

/-- The operation requested at another level. -/
def Instr.atLevel (q : Priv) : Instr → Instr
  | .cfgw _ g wdata => .cfgw q g wdata
  | .cfgr _ g => .cfgr q g
  | .addrw _ i wdata => .addrw q i wdata
  | .addrr _ i => .addrr q i
  | .check _ acc addr => .check q acc addr
  | .nop => .nop
  | .reset => .reset

/-- The priv field of a request decides its operation's level only (30_encoding.md R58). -/
theorem decodeRequest_map_atLevel (rst : Bool) (idx : BitVec 8) (acc : BitVec 2) (op : BitVec 3) (p q : Priv)
    (wdata addr : Word) :
    (decodeRequest ⟨rst, ctlWord idx acc (privBits p) op, wdata, addr⟩).map (Instr.atLevel q) =
      decodeRequest ⟨rst, ctlWord idx acc (privBits q) op, wdata, addr⟩ := by
  cases rst with
  | true => rfl
  | false =>
    simp only [decodeRequest, decodeCtl, withAcc, ctlOp_ctlWord, ctlRsv_ctlWord, ctlIdx_ctlWord, ctlAcc_ctlWord,
      withPriv_ctlWord, Bool.false_eq_true, if_false]
    split
    · rfl
    · split
      case h_6 => cases accOfBits acc <;> rfl
      all_goals rfl

/-- A decoding that builds its operation at the level it is given names the priv field's level. -/
theorem withPriv_level (c : BitVec 16) (k : Priv → Except DecodeError Instr) (i : Instr) (p : Priv)
    (hk : ∀ q, k q = .ok i → i.level = some q) (h : withPriv c k = .ok i) (hp : i.level = some p) :
    privOfBits (ctlPriv c) = some p := by
  obtain ⟨q, hq, e⟩ | ⟨-, e⟩ := withPriv_cases c k
  · rw [hq, ← hk q (e ▸ h), hp]
  · rw [e] at h
    cases h

theorem withAcc_check_level (c : BitVec 16) (addr : Word) (i : Instr) (q : Priv)
    (h : (withAcc c fun a => .ok (.check q a addr)) = .ok i) : i.level = some q := by
  obtain ⟨a, -, e⟩ | ⟨-, e⟩ := withAcc_cases c fun a => .ok (.check q a addr)
  · obtain rfl : Instr.check q a addr = i := Except.ok.inj (e ▸ h)
    rfl
  · rw [e] at h
    cases h

/-- The level of a decoded operation is the one its priv field names (30_encoding.md R56, R58). -/
theorem decodeCtl_level (c : BitVec 16) (wdata addr : Word) (i : Instr) (p : Priv)
    (h : decodeCtl c wdata addr = .ok i) (hp : i.level = some p) : privOfBits (ctlPriv c) = some p := by
  unfold decodeCtl at h
  split at h
  · cases h
  · split at h
    case h_1 => cases h; cases hp
    case h_6 => exact withPriv_level c _ i p (withAcc_check_level c addr i) h hp
    case h_7 => cases h
    all_goals exact withPriv_level c _ i p (fun q e => by cases e; rfl) h hp

/-- Only 0b11 names machine mode (30_encoding.md R56). -/
theorem privOfBits_eq_m_iff (b : BitVec 2) : privOfBits b = some .m ↔ b.toNat = 3 := by
  revert b
  decide

namespace Machine

theorem entryVerdict_of_ne_m (p : Priv) (acc : Access) (c : Byte) (hp : p ≠ .m) :
    entryVerdict p acc c = if permits acc c then .ok else .err := by
  simp [entryVerdict, hp]

theorem defaultVerdict_of_ne_m (p : Priv) (hp : p ≠ .m) : defaultVerdict p = .err := if_neg hp

/-- A verdict below machine mode is the same at every such level (42_permission_engine.md R100, R102). -/
theorem State.verdict_eq_of_ne_m (s : State) (p q : Priv) (acc : Access) (a : Nat) (hp : p ≠ .m) (hq : q ≠ .m) :
    s.verdict p acc a = s.verdict q acc a := by
  unfold State.verdict
  cases s.decidingEntry a with
  | none => exact (defaultVerdict_of_ne_m p hp).trans (defaultVerdict_of_ne_m q hq).symm
  | some i => exact (entryVerdict_of_ne_m p acc _ hp).trans (entryVerdict_of_ne_m q acc _ hq).symm

/-- No meaning tells two levels below machine mode apart (60_exceptions.md R106). -/
theorem exec_atLevel_eq_of_ne_m (i : Instr) (s : State) (p q : Priv) (hp : p ≠ .m) (hq : q ≠ .m) :
    exec (i.atLevel p) s = exec (i.atLevel q) s := by
  cases i with
  | nop | cfgr | addrr | reset => rfl
  | cfgw => simp [Instr.atLevel, exec, execCfgw, hp, hq]
  | addrw => simp [Instr.atLevel, exec, execAddrw, hp, hq]
  | check _ acc addr => simp [Instr.atLevel, exec, execCheck, s.verdict_eq_of_ne_m p q acc _ hp hq]

theorem step_pending_cons_of_ok (s : State) (r : Request) (rest : List Request) (i : Instr)
    (h : decodeRequest r = .ok i) : step { s with pending := r :: rest } = exec i { s with pending := rest } :=
  step_of_decoded { s with pending := r :: rest } i h

theorem step_pending_cons_of_error (s : State) (r : Request) (rest : List Request) (e : DecodeError)
    (h : decodeRequest r = .error e) : step { s with pending := r :: rest } = .refused (.encoding e) := by
  simp [step, State.presented, h]

/-- Settles O22: both requests decode to one operation up to the level, or are refused for one reason. -/
theorem supervisorAndUserAreEquivalent : Obligations.SupervisorAndUserAreEquivalent := by
  intro s rst idx acc op wdata addr rest
  have hs := decodeRequest_map_atLevel rst idx acc op .m .s wdata addr
  have hu := decodeRequest_map_atLevel rst idx acc op .m .u wdata addr
  cases hm : decodeRequest ⟨rst, ctlWord idx acc (privBits .m) op, wdata, addr⟩ with
  | ok i =>
    rw [hm] at hs hu
    rw [step_pending_cons_of_ok s _ rest _ hs.symm, step_pending_cons_of_ok s _ rest _ hu.symm]
    exact exec_atLevel_eq_of_ne_m i _ .s .u (by decide) (by decide)
  | error e =>
    rw [hm] at hs hu
    rw [step_pending_cons_of_error s _ rest e hs.symm, step_pending_cons_of_error s _ rest e hu.symm]

/-- An operation other than RESET that is not requested in machine mode leaves the store (40_csr_codec.md R74, R78). -/
theorem exec_keeps_store_of_level_ne_m (i : Instr) (s t : State) (hi : i ≠ .reset) (hl : i.level ≠ some .m)
    (h : exec i s = .next t) : t.cfg = s.cfg ∧ t.pmpaddr = s.pmpaddr := by
  obtain ⟨-, -, hstore⟩ := exec_next_store i s t h
  rcases hstore with hsame | ⟨g, w, rfl, -⟩ | ⟨e, w, rfl, -⟩ | ⟨hreset, -⟩
  · exact hsame
  · exact absurd rfl hl
  · exact absurd rfl hl
  · exact absurd hreset hi

/-- Settles O53: the operation decoded is no RESET and not requested in machine mode, so it leaves the store. -/
theorem onlyMachineModeWritesTheStore : Obligations.OnlyMachineModeWritesTheStore := by
  intro s t r rest hpending hrst hpriv h
  have hr : s.presented = r := by simp [State.presented, hpending]
  obtain ⟨i, hi, hdecode, hexec⟩ := step_next_cases_of_rst_eq_false s t h (hr ▸ hrst)
  refine exec_keeps_store_of_level_ne_m i s.consumed t hi (fun hl => hpriv ?_) hexec
  rw [hr, decodeRequest, hrst] at hdecode
  rw [← ctlPriv_toNat, ← privOfBits_eq_m_iff]
  exact decodeCtl_level r.ctl r.wdata r.addr i .m hdecode hl

end Machine
end Sys2Proof

/-! PROOFS. The address matcher: the bounds of each mode's region, the trailing ones of a NAPOT word, and what a match
depends on. -/

namespace Sys2Proof

theorem Xlen.bits_pos (x : Xlen) : 0 < x.bits := by
  cases x <;> decide

theorem Xlen.two_pow_bits_le (x : Xlen) : 2 ^ x.bits ≤ 2 ^ 64 := by
  cases x <;> decide

namespace Machine

/-! ## The mode and the 2-bit field A -/

/-- A = 3 is NAPOT (10_state.md R28). -/
theorem modeOf_eq_napot_iff (c : Byte) : modeOf c = .napot ↔ c.extractLsb' 3 2 = 3#2 := by
  obtain ⟨-, -, -, hnapot⟩ := modeOf_eq c
  refine ⟨fun h => ?_, hnapot⟩
  rw [modeOf_bits c, h]

/-- The mode is a function of the field A. -/
theorem modeOf_congr (c d : Byte) (h : c.extractLsb' 3 2 = d.extractLsb' 3 2) : modeOf c = modeOf d := by
  have h3 : c.getLsbD 3 = d.getLsbD 3 := by simpa using congrArg (·.getLsbD 0) h
  have h4 : c.getLsbD 4 = d.getLsbD 4 := by simpa using congrArg (·.getLsbD 1) h
  rw [modeOf, modeOf, h3, h4]

/-! ## Bounds of TOR and NA4 entries -/

/-- The lower bound of a TOR entry is a byte address, 0 for entry 0 (41_address_matcher.md R90). -/
theorem State.torLower_eq (s : State) (i : Nat) :
    s.torLower i = if i = 0 then 0 else (s.addrAt (i - 1)).toNat * 4 := by
  cases i with
  | zero => rfl
  | succ j => simp [State.torLower, byteAddress_eq]

/-- The lower bound of a TOR entry reads no more than the preceding word (41_address_matcher.md R90). -/
theorem State.torLower_congr (s t : State) (i : Nat) (h : 0 < i → s.addrAt (i - 1) = t.addrAt (i - 1)) :
    s.torLower i = t.torLower i := by
  cases i with
  | zero => rfl
  | succ j => exact congrArg byteAddress (h j.succ_pos)

theorem State.torLower_mod_four (s : State) (i : Nat) : s.torLower i % 4 = 0 := by
  rw [s.torLower_eq]
  split
  · rfl
  · exact Nat.mul_mod_left _ 4

theorem byteAddress_mod_four (w : Word) : byteAddress w % 4 = 0 := by
  rw [byteAddress_eq, Nat.mul_mod_left]

/-- Settles O29: a TOR entry's bounds are `torLower` and its own word's byte address, and no config byte is read for the
first. -/
theorem torEntryMatchesUpToItsOwnWord : Obligations.TorEntryMatchesUpToItsOwnWord := by
  intro s i a htor
  rw [s.matchesAt_tor i a ((modeOf_eq_tor_iff _).2 htor), s.torLower_eq, byteAddress_eq]

/-- Settles O24: an OFF entry's region is empty, and the TOR entry above it is bounded as any other. -/
theorem offEntryMatchesNoAddress : Obligations.OffEntryMatchesNoAddress := by
  intro s i a hoff
  obtain ⟨hmode, -⟩ := modeOf_eq (s.cfgAt i)
  exact ⟨s.matchesAt_off i a (hmode hoff), torEntryMatchesUpToItsOwnWord s (i + 1) a⟩

/-- Settles O25: an NA4 entry's bounds are its word's byte address and four above it. -/
theorem na4EntryMatchesFourBytes : Obligations.Na4EntryMatchesFourBytes := by
  intro s i a hna4
  obtain ⟨-, -, hmode, -⟩ := modeOf_eq (s.cfgAt i)
  rw [s.matchesAt_na4 i a (hmode hna4), byteAddress_eq]

/-- A byte address that is a multiple of 4, within 64 bits, comes back from the word it is encoded in (30_encoding.md
R67, R68). -/
theorem shiftRight_two_toNat_mul_four (x : Nat) (h4 : x % 4 = 0) (hx : x ≤ 2 ^ 64) :
    (BitVec.ofNat 64 (x >>> 2)).toNat * 4 = x := by
  rw [BitVec.toNat_ofNat, Nat.shiftRight_eq_div_pow]
  omega

/-- Settles O35: `torWord` and `na4Word` drop the two zero bits that the byte address puts back. -/
theorem torAndNa4WordsEncodeTheirBounds : Obligations.TorAndNa4WordsEncodeTheirBounds := by
  intro s i a x h4 hx
  have hback := shiftRight_two_toNat_mul_four x h4 (hx.trans (Xlen.two_pow_bits_le _))
  refine ⟨fun htor hw => ?_, fun hna4 hw => ?_⟩
  · rw [torEntryMatchesUpToItsOwnWord s 0 a htor, hw, torWord, hback]
    simp
  · rw [na4EntryMatchesFourBytes s i a hna4, hw, na4Word, hback]

/-! ## Trailing ones of a NAPOT word -/

/-- k low ones, as a remainder. -/
theorem ones_below_iff (w : Word) (k : Nat) : (∀ j < k, w.getLsbD j = true) ↔ w.toNat % 2 ^ k = 2 ^ k - 1 := by
  constructor
  · intro h
    apply Nat.eq_of_testBit_eq
    intro j
    rw [Nat.testBit_mod_two_pow, Nat.testBit_two_pow_sub_one]
    by_cases hj : j < k
    · simp [hj, ← h j hj, BitVec.testBit_toNat]
    · simp [hj]
  · intro h j hj
    have hbit := congrArg (·.testBit j) h
    rw [← BitVec.testBit_toNat]
    simpa [Nat.testBit_mod_two_pow, Nat.testBit_two_pow_sub_one, hj] using hbit

/-- k low ones with a zero above them, as a remainder. -/
theorem ones_below_zero_at_iff (w : Word) (k : Nat) :
    (∀ j < k, w.getLsbD j = true) ∧ w.getLsbD k = false ↔ w.toNat % 2 ^ (k + 1) = 2 ^ k - 1 := by
  have hlt : w.toNat % 2 ^ k < 2 ^ k := Nat.mod_lt _ (Nat.two_pow_pos k)
  rw [ones_below_iff, Nat.mod_pow_succ, ← BitVec.testBit_toNat, Nat.testBit_eq_decide_div_mod_eq]
  rcases Nat.mod_two_eq_zero_or_one (w.toNat / 2 ^ k) with hbit | hbit
  · simp [hbit]
  · exact iff_of_false (by simp [hbit]) (by rw [hbit]; omega)

/-- Settles O26: the word has k trailing ones exactly when `tones` counts k. -/
theorem napotEntryMatchesItsPowerOfTwo : Obligations.NapotEntryMatchesItsPowerOfTwo := by
  intro s i a k hnapot
  exact s.matchesAt_napot_ones i a k ((modeOf_eq_napot_iff _).2 hnapot)

/-- A NAPOT word with k < XLEN trailing ones, given as a remainder (41_address_matcher.md R86). -/
theorem State.matchesAt_napot_of_mod (s : State) (i a k : Nat) (hnapot : (s.cfgAt i).extractLsb' 3 2 = 3#2)
    (hk : k < s.params.xlen.bits) (hw : (s.addrAt i).toNat % 2 ^ (k + 1) = 2 ^ k - 1) :
    s.matchesAt i a = true ↔
      ((s.addrAt i).toNat - (2 ^ k - 1)) * 4 ≤ a ∧ a < ((s.addrAt i).toNat - (2 ^ k - 1)) * 4 + 2 ^ (k + 3) := by
  obtain ⟨hones, hzero⟩ := (ones_below_zero_at_iff _ k).2 hw
  exact napotEntryMatchesItsPowerOfTwo s i a k hnapot hk.le hones fun _ => hzero

/-- Settles O28: an even word has no trailing one. -/
theorem napotEvenWordMatchesEightBytes : Obligations.NapotEvenWordMatchesEightBytes := by
  intro s i a hnapot heven
  simpa using s.matchesAt_napot_of_mod i a 0 hnapot (Xlen.bits_pos _) (by simpa using heven)

/-- Settles O27: the base is 0, and the size 2^(k+3) reaches the top of the address space. -/
theorem napotWordOfOnesMatchesEveryAddress : Obligations.NapotWordOfOnesMatchesEveryAddress := by
  intro s i a k hnapot hlow hk hw ha
  have hbit : ∀ j, (s.addrAt i).getLsbD j = decide (j < k) := fun j => by
    rw [← BitVec.testBit_toNat, hw, Nat.testBit_two_pow_sub_one]
  have hreach : 2 ^ s.params.xlen.bits ≤ 2 ^ (k + 3) := Nat.pow_le_pow_right (by decide) (by omega)
  rw [napotEntryMatchesItsPowerOfTwo s i a k hnapot hk (fun j hj => by simp [hbit, hj]) (fun _ => by simp [hbit]), hw]
  omega

/-- The word of a base that is a multiple of its size: the two parts have no bit in common (30_encoding.md R66). -/
theorem napotWord_toNat (m k : Nat) (h : m * 2 ^ (k + 3) + 2 ^ (k + 3) ≤ 2 ^ 64) :
    (napotWord (m * 2 ^ (k + 3)) (2 ^ (k + 3))).toNat = m * 2 ^ (k + 1) + (2 ^ k - 1) := by
  have hpow : 2 ^ (k + 1) = 2 * 2 ^ k := pow_succ' 2 k
  have hpow3 : 2 ^ (k + 3) = 8 * 2 ^ k := by ring
  have hmul : m * 2 ^ (k + 3) = 4 * (m * 2 ^ (k + 1)) := by ring
  have hbase : (m * 2 ^ (k + 3)) >>> 2 = 2 ^ (k + 1) * m := by
    rw [Nat.shiftRight_eq_div_pow, hmul, Nat.mul_comm (2 ^ (k + 1))]
    omega
  have hsize : 2 ^ (k + 3) / 8 = 2 ^ k := by omega
  have hpos := Nat.two_pow_pos k
  rw [napotWord, hbase, hsize, ← Nat.two_pow_add_eq_or_of_lt (by omega), BitVec.toNat_ofNat, Nat.mul_comm]
  exact Nat.mod_eq_of_lt (by omega)

/-- Settles O34: the word has k trailing ones, and clearing them leaves a quarter of the base. -/
theorem napotWordEncodesItsRegion : Obligations.NapotWordEncodesItsRegion := by
  intro s i a k base hnapot hk hmod htop hw
  obtain ⟨m, rfl⟩ := Nat.dvd_of_mod_eq_zero hmod
  rw [Nat.mul_comm] at hw htop ⊢
  have hnat := congrArg BitVec.toNat hw
  rw [napotWord_toNat m k (htop.trans (Xlen.two_pow_bits_le _))] at hnat
  have hlt : 2 ^ k - 1 < 2 ^ (k + 1) := by
    have := Nat.two_pow_pos k
    omega
  have hones : (s.addrAt i).toNat % 2 ^ (k + 1) = 2 ^ k - 1 := by
    rw [hnat, Nat.mul_add_mod_self_right, Nat.mod_eq_of_lt hlt]
  have hbase : m * 2 ^ (k + 1) * 4 = m * 2 ^ (k + 3) := by ring
  rw [s.matchesAt_napot_of_mod i a k hnapot (by omega) hones, hnat, Nat.add_sub_cancel, hbase]

/-! ## Alignment of regions -/

/-- A NAPOT base is a multiple of the region's size: clearing the k trailing ones and the zero above them leaves a multiple
of 2^(k+1), and the all-ones word has base 0 (41_address_matcher.md R86, R87). -/
theorem napotSize_dvd_napotBase (x : Xlen) (w : Word) (hw : w.toNat < 2 ^ x.bits) : napotSize x w ∣ napotBase x w := by
  have hones := tones_ones x w
  rw [napotSize, napotBase, Nat.shiftLeft_eq]
  rcases (tones_le x w).lt_or_eq with hk | hk
  · have hmod := (ones_below_zero_at_iff w _).1 ⟨hones, tones_zero x w hk⟩
    have hclear : 2 ^ (tones x w + 1) ∣ w.toNat - (2 ^ tones x w - 1) := hmod ▸ Nat.dvd_sub_mod w.toNat
    have hsize : 2 ^ (tones x w + 3) = 2 ^ (tones x w + 1) * 2 ^ 2 := pow_add 2 (tones x w + 1) 2
    exact hsize ▸ Nat.mul_dvd_mul_right hclear (2 ^ 2)
  · have hmod := (ones_below_iff w _).1 hones
    rw [Nat.mod_eq_of_lt (hk ▸ hw)] at hmod
    simp [hmod]

theorem napotBase_mod_four (x : Xlen) (w : Word) : napotBase x w % 4 = 0 := by
  rw [napotBase, Nat.shiftLeft_eq, Nat.mul_mod_left]

theorem napotSize_mod_four (x : Xlen) (w : Word) : napotSize x w % 4 = 0 := by
  rw [napotSize, pow_add]
  omega

theorem napotSize_pos (x : Xlen) (w : Word) : 0 < napotSize x w := Nat.two_pow_pos _

theorem torRegion_eq_span_iff (lower upper lo hi : Nat) :
    torRegion lower upper = .span lo hi ↔ lower < upper ∧ lower = lo ∧ upper = hi := by
  unfold torRegion
  split <;> simp_all

/-- The three kinds of entry with a non-empty region, and its bounds (41_address_matcher.md R96). -/
theorem State.region_eq_span_cases (s : State) (i lo hi : Nat) (h : s.region i = .span lo hi) :
    (modeOf (s.cfgAt i) = .tor ∧ lo = s.torLower i ∧ hi = byteAddress (s.addrAt i) ∧ lo < hi) ∨
    (modeOf (s.cfgAt i) = .na4 ∧ lo = byteAddress (s.addrAt i) ∧ hi = lo + 4) ∨
    (modeOf (s.cfgAt i) = .napot ∧ lo = napotBase s.params.xlen (s.addrAt i) ∧
      hi = lo + napotSize s.params.xlen (s.addrAt i)) := by
  rw [State.region] at h
  cases hm : modeOf (s.cfgAt i) with
  | off => simp [hm] at h
  | tor =>
    simp only [hm] at h
    obtain ⟨hlt, rfl, rfl⟩ := (torRegion_eq_span_iff _ _ lo hi).1 h
    exact .inl ⟨rfl, rfl, rfl, hlt⟩
  | na4 =>
    simp only [hm, na4Region, Region.span.injEq] at h
    obtain ⟨rfl, rfl⟩ := h
    exact .inr (.inl ⟨rfl, rfl, rfl⟩)
  | napot =>
    simp only [hm, napotRegion, Region.span.injEq] at h
    obtain ⟨rfl, rfl⟩ := h
    exact .inr (.inr ⟨rfl, rfl, rfl⟩)

/-- Settles O33, by the mode; the form of the store makes the word an XLEN-bit value, which the all-ones NAPOT word
needs. -/
theorem regionBoundsAreAligned : Obligations.RegionBoundsAreAligned := by
  intro s i lo hi hs h
  rw [← modeOf_eq_napot_iff]
  rcases s.region_eq_span_cases i lo hi h with ⟨hm, rfl, rfl, hlt⟩ | ⟨hm, rfl, rfl⟩ | ⟨-, rfl, rfl⟩
  · exact ⟨hlt, s.torLower_mod_four i, byteAddress_mod_four _, by simp [hm]⟩
  · have hlo := byteAddress_mod_four (s.addrAt i)
    exact ⟨by omega, hlo, by omega, by simp [hm]⟩
  · have hlo := napotBase_mod_four s.params.xlen (s.addrAt i)
    have hsize := napotSize_mod_four s.params.xlen (s.addrAt i)
    have hpos := napotSize_pos s.params.xlen (s.addrAt i)
    have hfits := (s.params.fits_iff _).1 (s.wf_addrAt_fits hs i)
    refine ⟨by omega, hlo, by omega, fun _ => ?_⟩
    rw [Nat.add_sub_cancel_left]
    exact napotSize_dvd_napotBase _ _ hfits

/-! ## What a match depends on -/

/-- Settles O31: equal fields A give equal modes, and the words fix the bounds of each mode, the preceding one for TOR
only. -/
theorem matcherReadsOnlyModeAndWords : Obligations.MatcherReadsOnlyModeAndWords := by
  intro s t i a hxlen hfield hword hprev
  refine s.matchesAt_congr t i a hxlen (modeOf_congr _ _ hfield) hword fun htor => ?_
  exact s.torLower_congr t i (hprev ((modeOf_eq_tor_iff _).1 htor))

theorem State.region_tor (s : State) (i : Nat) (h : modeOf (s.cfgAt i) = .tor) :
    s.region i = torRegion (s.torLower i) (byteAddress (s.addrAt i)) := by
  rw [State.region, h]

/-- Settles O30: both bounds are byte addresses of words the two entries have in common. -/
theorem torRegionIsIndexIndependent : Obligations.TorRegionIsIndexIndependent := by
  intro s t i j hi hj hs ht hword hprev
  rw [s.region_tor i ((modeOf_eq_tor_iff _).2 hs), t.region_tor j ((modeOf_eq_tor_iff _).2 ht),
    s.torLower_eq, t.torLower_eq, if_neg hi.ne', if_neg hj.ne', hword, hprev]

/-! ## Reserved config bits -/

/-- A byte and the byte with its reserved bits 6:5 cleared have the same mode (10_state.md R29). -/
theorem modeOf_and_mask (c : Byte) : modeOf (c &&& 0x9F#8) = modeOf c := by
  simp [modeOf]

/-- The verdict of a deciding entry reads no reserved bit (10_state.md R29, 42_permission_engine.md R100). -/
theorem entryVerdict_and_mask (p : Priv) (acc : Access) (c : Byte) :
    entryVerdict p acc (c &&& 0x9F#8) = entryVerdict p acc c := by
  have hlock : lockBit (c &&& 0x9F#8) = lockBit c := by simp [lockBit]
  have hperm : permits acc (c &&& 0x9F#8) = permits acc c := by
    cases acc <;> simp [permits, readBit, writeBit, execBit]
  rw [entryVerdict, entryVerdict, hlock, hperm]

/-- The verdict is fixed by which entries match and by what each would answer (42_permission_engine.md R97). -/
theorem State.verdict_congr (s t : State) (p : Priv) (acc : Access) (a : Nat) (hn : s.params.n = t.params.n)
    (hmatch : ∀ i, s.matchesAt i a = t.matchesAt i a)
    (hentry : ∀ i, entryVerdict p acc (s.cfgAt i) = entryVerdict p acc (t.cfgAt i)) :
    s.verdict p acc a = t.verdict p acc a := by
  have hdecide : s.decidingEntry a = t.decidingEntry a := by simp [State.decidingEntry, hn, hmatch]
  rw [State.verdict, State.verdict, hdecide]
  cases t.decidingEntry a with
  | some i => exact hentry i
  | none => rfl

/-- Settles O42: the reserved bits are read neither by the matcher, through the mode, nor by the verdict of an entry. -/
theorem reservedConfigBitsChangeNoVerdict : Obligations.ReservedConfigBitsChangeNoVerdict := by
  intro s t p acc addr hparams hwords hmask
  have hword (i : Nat) : s.addrAt i = t.addrAt i := State.addrAt_congr hwords i
  have hmode (i : Nat) : modeOf (s.cfgAt i) = modeOf (t.cfgAt i) := by
    rw [← modeOf_and_mask, hmask, modeOf_and_mask]
  have hentry (i : Nat) : entryVerdict p acc (s.cfgAt i) = entryVerdict p acc (t.cfgAt i) := by
    rw [← entryVerdict_and_mask, hmask, entryVerdict_and_mask]
  have hmatch (i a : Nat) : s.matchesAt i a = t.matchesAt i a :=
    s.matchesAt_congr t i a (congrArg Params.xlen hparams) (hmode i) (hword i) fun _ =>
      s.torLower_congr t i fun _ => hword (i - 1)
  have hverdict := s.verdict_congr t p acc (s.params.port addr).toNat (congrArg Params.n hparams)
    (fun i => hmatch i _) hentry
  refine ⟨_, rfl, (execCheck_next_iff p acc addr t _).2 ?_⟩
  rw [hverdict, hparams]
  rfl

end Machine
end Sys2Proof

/-! PROOFS. The permission engine: what a CHECK answers for its first matching entry and without one, what the answer
depends on, and how long a locked entry's denial lasts. -/

namespace Sys2Proof

@[simp] theorem decodeRequest_check (idx : BitVec 8) (acc : Access) (p : Priv) (wdata addr : Word) :
    decodeRequest ⟨false, ctlWord idx (accBits acc) (privBits p) 0b101#3, wdata, addr⟩ = .ok (.check p acc addr) := by
  simp [decodeRequest, decodeCtl]

namespace Machine

/-! ## The answer of a check -/

/-- An access type selects R, W or X, bits 0 to 2 (42_permission_engine.md R100). -/
theorem permits_eq (acc : Access) (c : Byte) : permits acc c = c.getLsbD (permissionIndex acc) := by
  cases acc <;> rfl

/-- The bit on `err` for a deciding entry, read off the bits of its config byte (42_permission_engine.md R97). -/
theorem entryVerdict_bit_eq (p : Priv) (acc : Access) (c : Byte) :
    (entryVerdict p acc c).bit =
      if p = .m ∧ c.getLsbD 7 = false then 0#1
      else if c.getLsbD (permissionIndex acc) = true then 0#1 else 1#1 := by
  rw [entryVerdict_bit, permits_eq, ite_or]
  rfl

/-- A deciding entry lets an access pass by machine mode's bypass or by the permission bit, and by nothing else. -/
theorem entryVerdict_bit_eq_zero_iff (p : Priv) (acc : Access) (c : Byte) :
    (entryVerdict p acc c).bit = 0#1 ↔
      (p = .m ∧ c.getLsbD 7 = false) ∨ c.getLsbD (permissionIndex acc) = true := by
  rw [entryVerdict_bit, permits_eq]
  exact Ne.ite_eq_left_iff (by decide)

/-- CHECK judges the address its XLEN-bit port carries, and changes the outputs only (42_permission_engine.md R97). -/
theorem exec_check (s : State) (p : Priv) (acc : Access) (addr : Word) :
    exec (.check p acc addr) s =
      .next (s.judge (s.verdict p acc (addr.toNat % 2 ^ s.params.xlen.bits)).bit) := by
  rw [← s.params.port_toNat]
  rfl

theorem State.verdict_of_firstMatch (s : State) (p : Priv) (acc : Access) (a i : Nat) (h : s.firstMatch a i) :
    s.verdict p acc a = entryVerdict p acc (s.cfgAt i) := by
  obtain ⟨hi, hmatch, hbelow⟩ := h
  exact s.verdict_of_first p acc a i hi hmatch hbelow

theorem exec_check_of_firstMatch (s : State) (p : Priv) (acc : Access) (addr : Word) (i : Nat)
    (h : s.firstMatch (addr.toNat % 2 ^ s.params.xlen.bits) i) :
    exec (.check p acc addr) s = .next (s.judge (entryVerdict p acc (s.cfgAt i)).bit) := by
  rw [exec_check, s.verdict_of_firstMatch p acc _ i h]

theorem exec_check_of_noMatch (s : State) (p : Priv) (acc : Access) (addr : Word)
    (h : s.noMatch (addr.toNat % 2 ^ s.params.xlen.bits)) :
    exec (.check p acc addr) s = .next (s.judge (defaultVerdict p).bit) := by
  rw [exec_check, s.verdict_of_none p acc _ h]

/-- Settles O36: the verdict is the first matching entry's, or the default one without a match. -/
theorem checkAnswersTheVerdict : Obligations.CheckAnswersTheVerdict := by
  intro s p acc idx wdata addr
  refine ⟨decodeRequest_check idx acc p wdata addr, _, exec_check s p acc addr, fun i hfirst => ?_, fun hnone => ?_⟩
  · rw [s.verdict_of_firstMatch p acc _ i hfirst, entryVerdict_bit_eq]
  · rw [s.verdict_of_none p acc _ hnone, defaultVerdict_bit]

/-- Settles O38: machine mode on an unlocked entry is the first case of an entry's verdict. -/
theorem machineModeBypassesUnlockedEntries : Obligations.MachineModeBypassesUnlockedEntries := by
  intro s acc addr i hfirst hunlocked
  rw [exec_check_of_firstMatch s .m acc addr i hfirst, entryVerdict_bit_eq, if_pos ⟨rfl, hunlocked⟩]
  rfl

/-- Settles O39: a level below machine mode, or a lock, excludes the bypass and leaves the permission bit. -/
theorem selectedPermissionBitDecides : Obligations.SelectedPermissionBitDecides := by
  intro s p acc addr i hfirst hbound
  have hno_bypass : ¬(p = .m ∧ (s.cfgAt i).getLsbD 7 = false) := by
    rintro ⟨hp, hunlocked⟩
    rcases hbound with hne | hlocked
    · exact hne hp
    · exact Bool.false_ne_true (hunlocked.symm.trans hlocked)
  rw [exec_check_of_firstMatch s p acc addr i hfirst, entryVerdict_bit_eq, if_neg hno_bypass]
  rfl

/-- Settles O40: the default verdict at each of the three levels. -/
theorem defaultPolicyWithoutAMatch : Obligations.DefaultPolicyWithoutAMatch :=
  fun s acc addr hnone =>
    ⟨exec_check_of_noMatch s .m acc addr hnone, exec_check_of_noMatch s .s acc addr hnone,
      exec_check_of_noMatch s .u acc addr hnone⟩

/-! ## What a verdict depends on -/

/-- An entry matches by its own config byte and word and the word below it, in blocks of the same parameters
(41_address_matcher.md R83, R90). -/
theorem State.matchesAt_eq_of_entry_eq (s t : State) (i a : Nat) (hparams : s.params = t.params)
    (hcfg : s.cfgAt i = t.cfgAt i) (haddr : s.addrAt i = t.addrAt i)
    (hprev : 0 < i → s.addrAt (i - 1) = t.addrAt (i - 1)) : s.matchesAt i a = t.matchesAt i a :=
  s.matchesAt_congr t i a (congrArg Params.xlen hparams) (congrArg modeOf hcfg) haddr fun _ =>
    s.torLower_congr t i hprev

/-- Which entry matches first is settled by the entries up to it (42_permission_engine.md R98). -/
theorem State.firstMatch_congr (s t : State) (a i : Nat) (hn : s.params.n = t.params.n)
    (hmatch : ∀ j ≤ i, s.matchesAt j a = t.matchesAt j a) (h : s.firstMatch a i) : t.firstMatch a i := by
  obtain ⟨hi, hhit, hbelow⟩ := h
  exact ⟨hn ▸ hi, hmatch i le_rfl ▸ hhit, fun j hj => hmatch j hj.le ▸ hbelow j hj⟩

/-- Settles O37: the entries the stores share decide which matches first, and the first is among them. -/
theorem lowestMatchingEntryDecides : Obligations.LowestMatchingEntryDecides := by
  intro s t p acc addr i hparams hsame hfirst
  have hmatch : ∀ j ≤ i, ∀ a, s.matchesAt j a = t.matchesAt j a := fun j hj a =>
    s.matchesAt_eq_of_entry_eq t j a hparams (hsame j hj).1 (hsame j hj).2 fun _ =>
      (hsame (j - 1) ((Nat.sub_le j 1).trans hj)).2
  have hfirst' : t.firstMatch (addr.toNat % 2 ^ t.params.xlen.bits) i :=
    hparams ▸ s.firstMatch_congr t _ i (congrArg Params.n hparams) (fun j hj => hmatch j hj _) hfirst
  refine ⟨_, exec_check_of_firstMatch s p acc addr i hfirst, ?_, entryVerdict_bit_eq_zero_iff p acc (s.cfgAt i)⟩
  rw [(hsame i le_rfl).1]
  exact exec_check_of_firstMatch t p acc addr i hfirst'

/-- Settles O41: every entry matches, and would answer, alike in the two states. -/
theorem verdictIsAFunctionOfTheStore : Obligations.VerdictIsAFunctionOfTheStore := by
  intro s t p acc addr hparams hcfg hwords
  have hbyte (i : Nat) : s.cfgAt i = t.cfgAt i := State.cfgAt_congr hcfg i
  have hword (i : Nat) : s.addrAt i = t.addrAt i := State.addrAt_congr hwords i
  have hverdict (a : Nat) : s.verdict p acc a = t.verdict p acc a :=
    s.verdict_congr t p acc a (congrArg Params.n hparams)
      (fun i => s.matchesAt_eq_of_entry_eq t i a hparams (hbyte i) (hword i) fun _ => hword (i - 1))
      (fun i => congrArg (entryVerdict p acc) (hbyte i))
  refine ⟨_, exec_check s p acc addr, ?_⟩
  rw [hverdict, hparams]
  exact exec_check t p acc addr

/-! ## Locked entries along a run without RESET -/

/-- A step takes the presented request off the caller's list and leaves the parameters (60_exceptions.md R113). -/
theorem step_next_pending_params (s t : State) (h : step s = .next t) :
    t.pending = s.pending.tail ∧ t.params = s.params := by
  obtain ⟨o, -, hexec⟩ := step_next_cases s t h
  obtain ⟨hparams, hpending, -⟩ := exec_next_store o s.consumed t hexec
  exact ⟨hpending, hparams⟩

/-- Along a run whose requests hold no RESET a locked entry keeps its config byte, so its lock too, and its word; the
parameters stay (70_reset_and_hazards.md R125). -/
theorem State.runSteps_keeps_locked (k : Nat) (s t : State) (i : Nat) (h : State.runSteps k s = some t)
    (hrst : ∀ r ∈ s.pending, r.rst = false) (hlock : (s.cfgAt i).getLsbD 7 = true) :
    t.params = s.params ∧ t.cfgAt i = s.cfgAt i ∧ t.addrAt i = s.addrAt i := by
  induction k generalizing s with
  | zero =>
    obtain rfl := (State.runSteps_zero s t).1 h
    exact ⟨rfl, rfl, rfl⟩
  | succ k ih =>
    obtain ⟨u, hstep, hrun⟩ := (State.runSteps_succ k s t).1 h
    obtain ⟨hpending, hparams⟩ := step_next_pending_params s u hstep
    obtain ⟨hcfg, haddr⟩ := lockedEntriesAreImmutable s u i hstep (fun r hr => hrst r (List.mem_of_head? hr)) hlock
    have hrst' : ∀ r ∈ u.pending, r.rst = false := fun r hr => hrst r (List.mem_of_mem_tail (hpending ▸ hr))
    obtain ⟨hparams', hcfg', haddr'⟩ := ih u hrun hrst' (hcfg ▸ hlock)
    exact ⟨hparams'.trans hparams, hcfg'.trans hcfg, haddr'.trans haddr⟩

/-- Nothing lies below entry 0, so it decides wherever it matches (42_permission_engine.md R98). -/
theorem State.firstMatch_zero (s : State) (a : Nat) (hn : 0 < s.params.n) (h : s.matchesAt 0 a = true) :
    s.firstMatch a 0 :=
  ⟨hn, h, fun j hj => absurd hj j.not_lt_zero⟩

/-- Settles O50: the run keeps entry 0 as it is, so it still matches, decides before every other entry, and binds every
level by its lock. -/
theorem lockedFirstEntryDeniesUntilReset : Obligations.LockedFirstEntryDeniesUntilReset := by
  intro k s t p acc addr hrun hrst hn hlock hperm hmatch
  obtain ⟨hparams, hcfg, haddr⟩ := State.runSteps_keeps_locked k s t 0 hrun hrst hlock
  have hmatch' : t.matchesAt 0 (addr.toNat % 2 ^ t.params.xlen.bits) = true := by
    rw [t.matchesAt_eq_of_entry_eq s 0 _ hparams hcfg haddr fun h => absurd h (lt_irrefl 0), hparams]
    exact hmatch
  have hfirst := t.firstMatch_zero _ (hparams ▸ hn) hmatch'
  rw [selectedPermissionBitDecides t p acc addr 0 hfirst (.inr (hcfg ▸ hlock)), hcfg, hperm]
  rfl

end Machine
end Sys2Proof

/-! PROOFS. Reset and lifetime: what RESET leaves in the store and what every reading answers right after it, and that
nothing else ends a lock. -/

namespace Sys2Proof.Machine

/-! ## Locks without RESET -/

/-- Settles O49: an induction over the run, each step keeping the locked entry, so its lock, too. -/
theorem lockedEntriesPersistAlongRuns : Obligations.LockedEntriesPersistAlongRuns := by
  intro k s t i hrun hrst hlock
  obtain ⟨-, hentry⟩ := State.runSteps_keeps_locked k s t i hrun hrst hlock
  exact hentry

/-- Where an operation other than RESET completes, an L bit that was 1 is 1 (10_state.md R30). -/
theorem exec_keeps_lock_bit (o : Instr) (s t : State) (i : Nat) (ho : o ≠ .reset) (h : exec o s = .next t)
    (hlock : (s.cfgAt i).getLsbD 7 = true) : (t.cfgAt i).getLsbD 7 = true := by
  obtain ⟨hcfg, -⟩ := exec_keeps_locked o s t i ho h hlock
  rw [hcfg]
  exact hlock

/-! ## The store after RESET -/

/-- Settles O43: rst = 1 alone names RESET, RESET answers two arrays of N zeros from every state, and every other
operation keeps a lock bit. -/
theorem resetClearsTheWholeStore : Obligations.ResetClearsTheWholeStore := by
  intro s ctl wdata addr
  refine ⟨(decodeRequest_eq_reset _).2 rfl, s.zeroed.quiet, (execReset_next_iff s _).2 rfl, rfl, by simp, by simp,
    fun i hi => ?_, fun o u i => exec_keeps_lock_bit o s u i⟩
  simp [hi]

/-! ## What is read right after RESET -/

/-- A zero config byte has mode OFF, so where every one is zero no entry matches (41_address_matcher.md R84). -/
theorem State.noMatch_of_cfgAt_eq_zero (s : State) (a : Nat) (h : ∀ i, s.cfgAt i = 0#8) : s.noMatch a :=
  fun i _ => s.matchesAt_off i a (congrArg modeOf (h i))

/-- Settles O45: the store RESET leaves matches no address, so the default verdict answers every check, and it reads zero
everywhere. -/
theorem afterResetOnlyMachineModePasses : Obligations.AfterResetOnlyMachineModePasses := by
  intro s t hreset
  obtain rfl := (execReset_next_iff s t).1 hreset
  have hcfg : ∀ i, s.zeroed.quiet.cfgAt i = 0#8 := s.zeroed_cfgAt
  refine ⟨fun p acc addr => ?check, fun p g hg => ?cfgr, fun p i hi => ?addrr⟩
  case check =>
    rw [exec_check_of_noMatch _ p acc addr (State.noMatch_of_cfgAt_eq_zero _ _ hcfg), defaultVerdict_bit]
    rfl
  case cfgr =>
    refine (execCfgr_next_iff p g _ _).2 ⟨hg, ?_⟩
    rw [State.readGroup_eq_zero _ g.toNat hcfg]
    rfl
  case addrr =>
    refine (execAddrr_next_iff p i _ _).2 ⟨hi, ?_⟩
    rw [State.quiet_addrAt, State.zeroed_addrAt]
    rfl

end Sys2Proof.Machine

/-! PROOFS. The decoder: the operation a ctl word names, the requests it refuses, and the fields it reads. -/

namespace Sys2Proof

/-! ## The opcode map -/

@[simp] theorem decodeRequest_nop (idx : BitVec 8) (acc priv : BitVec 2) (wdata addr : Word) :
    decodeRequest ⟨false, ctlWord idx acc priv 0b000#3, wdata, addr⟩ = .ok .nop := by
  simp [decodeRequest, decodeCtl]

/-- Settles O1: an operation is encoded as a ctl word of its own opcode, and the opcode map reads each back. -/
theorem decodeOfEncodeIsIdentity : Obligations.DecodeOfEncodeIsIdentity := by
  intro i
  cases i with
  | nop => exact decodeRequest_nop 0 0 0 0 0
  | cfgw p g wdata => exact decodeRequest_cfgw g 0 p wdata 0
  | cfgr p g => exact decodeRequest_cfgr g 0 p 0 0
  | addrw p i wdata => exact decodeRequest_addrw i 0 p wdata 0
  | addrr p i => exact decodeRequest_addrr i 0 p 0 0
  | check p acc addr => exact decodeRequest_check 0 acc p 0 addr
  | reset => rfl

/-- Settles O2: one equation of the decoder for each opcode. -/
theorem opcodeMapNamesTheOperation : Obligations.OpcodeMapNamesTheOperation :=
  fun idx acc priv p a wdata addr =>
    ⟨decodeRequest_nop idx acc priv wdata addr, decodeRequest_cfgw idx acc p wdata addr,
      decodeRequest_cfgr idx acc p wdata addr, decodeRequest_addrw idx acc p wdata addr,
      decodeRequest_addrr idx acc p wdata addr, decodeRequest_check idx a p wdata addr⟩

/-- With rst = 0 the ctl word decides (70_reset_and_hazards.md R127). -/
theorem decodeRequest_of_rst_eq_false (c : BitVec 16) (wdata addr : Word) :
    decodeRequest ⟨false, c, wdata, addr⟩ = decodeCtl c wdata addr := rfl

/-- Settles O5: each word is the ctl word of the index, access type and level given here. -/
theorem frequentControlWordsDecode : Obligations.FrequentControlWordsDecode := by
  intro wdata addr
  simp only [← decodeRequest_of_rst_eq_false]
  exact ⟨decodeRequest_nop 0 0 0 wdata addr, decodeRequest_cfgw 0 0 .m wdata addr, decodeRequest_cfgr 3 0 .m wdata addr,
    decodeRequest_addrw 15 0 .m wdata addr, decodeRequest_addrr 0 0 .m wdata addr,
    decodeRequest_check 0 .read .u wdata addr, decodeRequest_check 0 .read .s wdata addr,
    decodeRequest_check 0 .write .m wdata addr, decodeRequest_check 0 .execute .m wdata addr⟩

/-! ## The requests refused -/

theorem ctlPriv_eq_iff (c : BitVec 16) (b : BitVec 2) : ctlPriv c = b ↔ c.toNat / 8 % 4 = b.toNat := by
  rw [← BitVec.toNat_inj, ctlPriv_toNat]

theorem ctlAcc_eq_iff (c : BitVec 16) (b : BitVec 2) : ctlAcc c = b ↔ c.toNat / 32 % 4 = b.toNat := by
  rw [← BitVec.toNat_inj, ctlAcc_toNat]

theorem ctlRsv_eq_one_iff (c : BitVec 16) : ctlRsv c = 1#1 ↔ c.toNat / 128 % 2 = 1 := by
  rw [← BitVec.toNat_inj, ctlRsv_toNat]
  rfl

/-- A level-taking decoding is refused for its level, or for what refuses the rest of it at every level. -/
theorem withPriv_refused_iff (c : BitVec 16) (k : Priv → Except DecodeError Instr) (refused : Prop)
    (hk : ∀ p, (∃ e, k p = .error e) ↔ refused) :
    (∃ e, withPriv c k = .error e) ↔ c.toNat / 8 % 4 = 2 ∨ refused := by
  have hlevel := (privOfBits_eq_none (ctlPriv c)).trans (ctlPriv_eq_iff c _)
  obtain ⟨p, hp, e⟩ | ⟨hpriv, e⟩ := withPriv_cases c k
  · have hne : c.toNat / 8 % 4 ≠ 2 := fun h => by simp [hlevel.2 h] at hp
    rw [e, hk p, or_iff_right hne]
  · exact iff_of_true ⟨_, e⟩ (.inl ((ctlPriv_eq_iff c _).1 hpriv))

/-- A CHECK's decoding at a known level is refused for its access type only. -/
theorem withAcc_refused_iff (c : BitVec 16) (f : Access → Instr) :
    (∃ e, (withAcc c fun a => .ok (f a)) = .error e) ↔ c.toNat / 32 % 4 = 3 := by
  have hacc := (accOfBits_eq_none (ctlAcc c)).trans (ctlAcc_eq_iff c _)
  obtain ⟨a, ha, e⟩ | ⟨hbits, e⟩ := withAcc_cases c fun a => .ok (f a)
  · have hne : c.toNat / 32 % 4 ≠ 3 := fun h => by simp [hacc.2 h] at ha
    simp [e, hne]
  · exact iff_of_true ⟨_, e⟩ ((ctlAcc_eq_iff c _).1 hbits)

/-- The ctl words that name no operation: items 1 to 4 of 30_encoding.md R61. -/
theorem decodeCtl_refused_iff (c : BitVec 16) (wdata addr : Word) :
    (∃ e, decodeCtl c wdata addr = .error e) ↔
      6 ≤ c.toNat % 8 ∨ c.toNat / 128 % 2 = 1 ∨ (c.toNat % 8 ≠ 0 ∧ c.toNat / 8 % 4 = 2) ∨
        (c.toNat % 8 = 5 ∧ c.toNat / 32 % 4 = 3) := by
  have hlevel (f : Priv → Instr) := withPriv_refused_iff c (fun p => .ok (f p)) False (by simp)
  have hcheck := withPriv_refused_iff c _ _ fun p => withAcc_refused_iff c (.check p · addr)
  unfold decodeCtl
  simp only [ctlOp_toNat, ctlRsv_eq_one_iff]
  split
  case isTrue hrsv => simp [hrsv]
  case isFalse hrsv =>
    split
    case h_1 hop => simp [hop, hrsv]
    case h_6 hop => rw [hcheck]; simp [hop, hrsv]
    case h_7 h0 h1 h2 h3 h4 h5 =>
      have hop : 6 ≤ c.toNat % 8 := by grind
      exact iff_of_true ⟨_, rfl⟩ (.inl hop)
    all_goals
      rename_i hop
      rw [hlevel]
      simp [hop, hrsv]

/-- Settles O4: rst = 1 is never refused, and with rst = 0 the ctl word decides. -/
theorem decoderRefusesExactlyTheReservedEncodings : Obligations.DecoderRefusesExactlyTheReservedEncodings := by
  intro r
  rw [← decodeCtl_refused_iff r.ctl r.wdata r.addr, decodeRequest]
  cases r.rst <;> simp

/-! ## The fields read -/

/-- Two ctl words with the fields and data ports their operation uses in common decode alike (30_encoding.md R62). -/
theorem decodeCtl_congr (c d : BitVec 16) (wdata wdata' addr addr' : Word) (hop : ctlOp c = ctlOp d)
    (hrsv : ctlRsv c = ctlRsv d) (hpriv : (ctlOp c).toNat ≠ 0 → ctlPriv c = ctlPriv d)
    (hcheck : (ctlOp c).toNat = 5 → ctlAcc c = ctlAcc d ∧ addr = addr')
    (hidx : 1 ≤ (ctlOp c).toNat ∧ (ctlOp c).toNat ≤ 4 → ctlIdx c = ctlIdx d)
    (hwdata : (ctlOp c).toNat = 1 ∨ (ctlOp c).toNat = 3 → wdata = wdata') :
    decodeCtl c wdata addr = decodeCtl d wdata' addr' := by
  unfold decodeCtl withPriv withAcc
  rw [← hop, ← hrsv]
  split
  · rfl
  · split
    case h_1 | h_7 => rfl
    case h_6 hop =>
      obtain ⟨hacc, rfl⟩ := hcheck hop
      rw [hpriv (by omega), hacc]
    all_goals simp_all

/-- Settles O3: the numbers that agree are the fields, read off the ctl words. -/
theorem ignoredFieldsChangeNoOperation : Obligations.IgnoredFieldsChangeNoOperation := by
  intro q r hrst hop hrsv hpriv hcheck hidx hwdata
  rw [decodeRequest, decodeRequest, hrst]
  simp only [← ctlOp_toNat, ← ctlRsv_toNat, ← ctlPriv_toNat, ← ctlAcc_toNat, ← ctlIdx_toNat, BitVec.toNat_inj]
    at hop hrsv hpriv hcheck hidx hwdata
  rw [decodeCtl_congr _ _ _ _ _ _ hop hrsv hpriv hcheck hidx hwdata]

end Sys2Proof

/-! PROOFS. The step: the request it runs, when it goes on, what it does to the caller's list, and what an operation leaves
on the output ports. -/

namespace Sys2Proof.Machine

/-! ## The request on the ports -/

theorem State.presented_of_cons (s : State) (r : Request) (rest : List Request) (h : s.pending = r :: rest) :
    s.presented = r := by
  simp [State.presented, h]

theorem State.consumed_of_cons (s : State) (r : Request) (rest : List Request) (h : s.pending = r :: rest) :
    s.consumed = { s with pending := rest } := by
  simp [State.consumed, h]

/-- Settles O6: the request presented is the first of the list, and what is left of the list is the rest. -/
theorem stepRunsThePresentedOperation : Obligations.StepRunsThePresentedOperation := by
  intro s r rest i hpending hdecode
  rw [← s.consumed_of_cons r rest hpending]
  exact step_of_decoded s i ((s.presented_of_cons r rest hpending).symm ▸ hdecode)

/-- Settles O7: the step answers the decoder's error on the first request of the list. -/
theorem stepRefusesWhatTheDecoderRefuses : Obligations.StepRefusesWhatTheDecoderRefuses := by
  intro s r rest e hpending hdecode
  simp [step, s.presented_of_cons r rest hpending, hdecode]

/-- Settles O12: NOP clears the outputs and touches nothing else. -/
theorem nopLeavesEverything : Obligations.NopLeavesEverything :=
  fun s => (execNop_next_iff s _).2 rfl

/-- Settles O8: the idle ports present NOP, and the empty list has nothing to lose. -/
theorem idleStepLeavesTheStore : Obligations.IdleStepLeavesTheStore := by
  intro s hpending
  have hpresented : s.presented = encode .nop := by
    simp [State.presented, hpending, idleRequest]
  rw [step_of_decoded s .nop (hpresented ▸ decodeOfEncodeIsIdentity .nop)]
  refine (execNop_next_iff s.consumed _).2 ?_
  simp [State.consumed, State.quiet, hpending]

/-- Settles O10: rst = 1 decodes to RESET, and the zeroed store without outputs is the reset state of its parameters. -/
theorem resetReplacesTheRequestOfItsStep : Obligations.ResetReplacesTheRequestOfItsStep := by
  intro s ctl wdata addr rest hpending
  rw [stepRunsThePresentedOperation s _ rest .reset hpending ((decodeRequest_eq_reset _).2 rfl)]
  exact (execReset_next_iff _ _).2 rfl

/-- Settles O11: no operation changes the list or the parameters, and the step takes one request off the list. -/
theorem stepTakesOneRequestAndKeepsParameters : Obligations.StepTakesOneRequestAndKeepsParameters :=
  step_next_pending_params

/-! ## Indices out of range -/

theorem onGroup_of_ge (g : BitVec 8) (s : State) (k : Nat → State) (h : s.params.groups ≤ g.toNat) :
    onGroup g s k = .refused (.groupOutOfRange g.toNat) := if_neg h.not_gt

theorem onEntry_of_ge (i : BitVec 8) (s : State) (k : Nat → State) (h : s.params.n ≤ i.toNat) :
    onEntry i s k = .refused (.entryOutOfRange i.toNat) := if_neg h.not_gt

/-- Settles O17: both operations on a group, and both on an entry, check the index before they do anything. -/
theorem outOfRangeIndicesAreRefused : Obligations.OutOfRangeIndicesAreRefused := by
  intro s p e w
  refine ⟨fun h => ?group, fun h => ?entry⟩
  case group => simp [exec, execCfgw, execCfgr, onGroup_of_ge e s _ h]
  case entry => simp [exec, execAddrw, execAddrr, onEntry_of_ge e s _ h]

/-! ## When a step goes on -/

/-- The index of an operation, where it has one, names a group or an entry of the block (30_encoding.md R60). -/
def indexInRange (p : Params) : Instr → Prop
  | .cfgw _ g _ | .cfgr _ g => g.toNat < p.groups
  | .addrw _ i _ | .addrr _ i => i.toNat < p.n
  | .nop | .check _ _ _ | .reset => True

/-- The index is all an operation can be refused for once it is decoded (30_encoding.md R61 items 5 and 6). -/
theorem exec_goes_on_iff (i : Instr) (s : State) : (∃ t, exec i s = .next t) ↔ indexInRange s.params i := by
  cases i with
  | nop => exact iff_of_true ⟨_, rfl⟩ trivial
  | cfgw p g w => simp [exec, execCfgw_next_iff, indexInRange]
  | cfgr p g => simp [exec, execCfgr_next_iff, indexInRange]
  | addrw p e w => simp [exec, execAddrw_next_iff, indexInRange]
  | addrr p e => simp [exec, execAddrr_next_iff, indexInRange]
  | check p acc a => exact iff_of_true ⟨_, rfl⟩ trivial
  | reset => exact iff_of_true ⟨_, rfl⟩ trivial

/-- A step goes on exactly where the ports hold an operation with its index in range. -/
theorem State.goesOn_iff (s : State) :
    s.goesOn ↔ ∃ i, decodeRequest s.presented = .ok i ∧ indexInRange s.params i := by
  constructor
  · rintro ⟨t, h⟩
    obtain ⟨i, hdecode, hexec⟩ := step_next_cases s t h
    exact ⟨i, hdecode, (exec_goes_on_iff i s.consumed).1 ⟨t, hexec⟩⟩
  · rintro ⟨i, hdecode, hindex⟩
    obtain ⟨t, hexec⟩ := (exec_goes_on_iff i s.consumed).2 hindex
    exact ⟨t, (step_of_decoded s i hdecode).trans hexec⟩

theorem exists_of_withPriv_eq_ok (c : BitVec 16) (k : Priv → Except DecodeError Instr) (i : Instr)
    (h : withPriv c k = .ok i) : ∃ p, k p = .ok i := by
  obtain ⟨p, -, e⟩ | ⟨-, e⟩ := withPriv_cases c k
  · exact ⟨p, e ▸ h⟩
  · simp [e] at h

theorem exists_of_withAcc_eq_ok (c : BitVec 16) (k : Access → Except DecodeError Instr) (i : Instr)
    (h : withAcc c k = .ok i) : ∃ a, k a = .ok i := by
  obtain ⟨a, -, e⟩ | ⟨-, e⟩ := withAcc_cases c k
  · exact ⟨a, e ▸ h⟩
  · simp [e] at h

/-- Which limit binds the idx field of a decoded operation depends on its opcode (30_encoding.md R60). -/
theorem indexInRange_of_decodeCtl (p : Params) (c : BitVec 16) (wdata addr : Word) (i : Instr)
    (h : decodeCtl c wdata addr = .ok i) :
    indexInRange p i ↔
      (c.toNat % 8 = 1 ∨ c.toNat % 8 = 2 → c.toNat / 256 < p.groups) ∧
        (c.toNat % 8 = 3 ∨ c.toNat % 8 = 4 → c.toNat / 256 < p.n) := by
  unfold decodeCtl at h
  rw [ctlOp_toNat] at h
  split at h
  · cases h
  · split at h
    case h_1 hop => cases h; simp [indexInRange, hop]
    case h_6 hop =>
      obtain ⟨q, h⟩ := exists_of_withPriv_eq_ok c _ i h
      obtain ⟨a, h⟩ := exists_of_withAcc_eq_ok c _ i h
      cases h
      simp [indexInRange, hop]
    case h_7 => cases h
    all_goals
      rename_i hop
      obtain ⟨q, h⟩ := exists_of_withPriv_eq_ok c _ i h
      cases h
      simp [indexInRange, hop, ctlIdx_toNat]

/-- The admitted requests are those that decode to an operation with its index in range. -/
theorem admitted_iff (p : Params) (r : Request) :
    admitted p r ↔ ∃ i, decodeRequest r = .ok i ∧ indexInRange p i := by
  have hrefused := decoderRefusesExactlyTheReservedEncodings r
  cases hrst : r.rst with
  | true => simp [admitted, decodeRequest, hrst, indexInRange]
  | false =>
    cases hdecode : decodeRequest r with
    | error e =>
      obtain ⟨-, hreserved⟩ := hrefused.1 ⟨e, hdecode⟩
      refine iff_of_false ?_ (by simp)
      simp only [admitted, hrst, Bool.false_eq_true, false_or]
      omega
    | ok i =>
      have hctl : decodeCtl r.ctl r.wdata r.addr = .ok i := by simpa [decodeRequest, hrst] using hdecode
      have hindex := indexInRange_of_decodeCtl p r.ctl r.wdata r.addr i hctl
      simp only [hdecode, hrst, reduceCtorEq, exists_false, true_and, false_iff] at hrefused
      simp only [admitted, hrst, Bool.false_eq_true, false_or, Except.ok.injEq, exists_eq_left', hindex]
      omega

/-- Settles O9: both sides say that the request decodes to an operation with its index in range. -/
theorem stepGoesOnExactlyForAdmittedRequests : Obligations.StepGoesOnExactlyForAdmittedRequests := by
  intro s r rest hpending
  rw [s.goesOn_iff, s.presented_of_cons r rest hpending, admitted_iff]

/-! ## The output ports -/

/-- Settles O23: the reads answer on `rdata`, CHECK on `err`, and every other operation leaves both without a value. -/
theorem outputsHaveValuesOnlyWhereDefined : Obligations.OutputsHaveValuesOnlyWhereDefined := by
  intro i s t h
  cases i with
  | nop =>
    obtain rfl := (execNop_next_iff s t).1 h
    simp
  | cfgw p g w =>
    obtain ⟨-, rfl⟩ := (execCfgw_next_iff p g w s t).1 h
    split <;> simp
  | cfgr p g =>
    obtain ⟨-, rfl⟩ := (execCfgr_next_iff p g s t).1 h
    simp
  | addrw p e w =>
    obtain ⟨-, rfl⟩ := (execAddrw_next_iff p e w s t).1 h
    split <;> simp
  | addrr p e =>
    obtain ⟨-, rfl⟩ := (execAddrr_next_iff p e s t).1 h
    simp
  | check p acc a =>
    obtain rfl := (execCheck_next_iff p acc a s t).1 h
    simp
  | reset =>
    obtain rfl := (execReset_next_iff s t).1 h
    simp

end Sys2Proof.Machine

/-! PROOFS. The decisions D10 and D12: bounds beyond the address space, and the address register below a locked entry. -/

namespace Sys2Proof

/-- The byte address of the word 2^(XLEN-2) is the end of the address space (00_scope.md R12). -/
theorem Xlen.two_pow_bits_sub_two (x : Xlen) : 2 ^ (x.bits - 2) * 4 = 2 ^ x.bits := by
  cases x <;> rfl

namespace Machine

/-- Settles O32: the bounds are naturals, so a base beyond the address space lies above every address, and so does a
top. -/
theorem regionsDoNotWrap : Obligations.RegionsDoNotWrap := by
  intro s i a ha
  have hend := s.params.xlen.two_pow_bits_sub_two
  refine ⟨fun hna4 hw => ?_, fun hnapot hbase => ?_, fun htor hw => ?_⟩
  · rw [← Bool.not_eq_true, na4EntryMatchesFourBytes s i a hna4]
    omega
  · rw [← Bool.not_eq_true, s.matchesAt_napot i a ((modeOf_eq_napot_iff _).2 hnapot)]
    omega
  · rw [torEntryMatchesUpToItsOwnWord s 0 a htor, if_pos rfl]
    omega

/-- An operation other than RESET leaves a locked address register (40_csr_codec.md R77, R78). -/
theorem exec_keeps_addr_of_addrLocked (o : Instr) (s t : State) (i : Nat) (ho : o ≠ .reset) (h : exec o s = .next t)
    (hl : s.addrLocked i = true) : t.addrAt i = s.addrAt i := by
  obtain ⟨-, -, hstore⟩ := exec_next_store o s t h
  rcases hstore with ⟨-, ha⟩ | ⟨g, w, -, -, -, ha⟩ | ⟨e, w, -, -, he, -, ha⟩ | ⟨hreset, -, -⟩
  · exact State.addrAt_congr ha i
  · exact State.addrAt_congr ha i
  · have hne : i ≠ e.toNat := by
      rintro rfl
      simp [hl] at he
    exact (State.addrAt_congr ha i).trans (s.writeAddr_addrAt_of_ne _ w i hne)
  · exact absurd hreset ho

/-- Settles O51: with TOR_PREV_LOCK the locked TOR entry above locks the register, and no operation but RESET changes a
locked one. -/
theorem torPrevLockKeepsThePrecedingWord : Obligations.TorPrevLockKeepsThePrecedingWord := by
  intro s t i h hr hprev hi hlock htor
  obtain ⟨o, ho, -, hexec⟩ := step_next_cases_of_rst_eq_false s t h (s.presented_rst_eq_false hr)
  have hl : s.addrLocked i = true :=
    (s.addrLocked_iff i).2 (.inr ⟨hprev, hi, hlock, (modeOf_eq_tor_iff _).2 htor⟩)
  exact exec_keeps_addr_of_addrLocked o s.consumed t i ho hexec hl

/-- Settles O52: without TOR_PREV_LOCK an unlocked entry's register is not locked, so the write goes through, and an
XLEN-bit word passes the port unchanged. -/
theorem withoutTorPrevLockTheBottomMoves : Obligations.WithoutTorPrevLockTheBottomMoves := by
  intro s i w hs hprev hi hunlocked _ hw
  have hn : i.toNat < s.params.n := by omega
  obtain ⟨-, -, hlen, -⟩ := s.wf_iff.1 hs
  have hl : s.addrLocked i.toNat = false :=
    (s.addrLocked_eq_false_iff i.toNat).2 ⟨hunlocked, by simp [hprev]⟩
  refine ⟨_, (execAddrw_next_iff .m i w s _).2 ⟨hn, rfl⟩, ?_⟩
  rw [if_pos ⟨rfl, hl⟩, State.quiet_addrAt, s.writeAddr_addrAt _ w _ (hlen ▸ hn), if_pos rfl, s.params.port_of_fits w hw]

end Machine
end Sys2Proof
